-- ==== Sys2Proof/Config.lean ====
section
/-! DEFINITION. The construction arguments of the machine that `Machine.State.reset` is. Of the parameters of 00_scope.md
R5, `CAPACITY` and `OFFSET`, which the host chooses at construction (R32, R150), are fields of `Machine.State`, and every
meaning holds for all their values; `N` = 16 (D1; log entry 9), `IW` = 16 and `NREG` = 16 are fixed and stand in the types
of Word.lean and `Machine.State`. The hardware has no value that the spec leaves undefined after an instruction, so no free
value is declared. -/

namespace Sys2Proof.Config

/-- The default of the construction argument `CAPACITY` (R5). -/
def defaultCapacity : Nat := 1024

/-- The construction argument `OFFSET` that `Machine.State.reset` uses. DESIGN CHOICE, unsafe: the spec gives `OFFSET`
no default (R5, D17); 16 is the value its test vectors use (95_test_vectors.md). Log entry 3. -/
def resetOffset : Nat := 16

end Sys2Proof.Config
end

