-- ==== Sys2Proof/Word.lean ====
section
/-! DEFINITION. The word types of the hardware. -/

namespace Sys2Proof

/-- A value of a register or of a memory cell: an unsigned word of `N` = `DATA_WIDTH` = 16 bits (R5, R8, R21, R41; decision D1,
log entry 9). -/
abbrev Word := BitVec 16

/-- An instruction word, "16-bit unsigned integer" (`IW` = 16, R5, R60). -/
abbrev InstrWord := BitVec 16

/-- A raw 4-bit operand field: a register index, a literal, or a jump index, as the mode and the opcode say (R14, R60). -/
abbrev OpField := BitVec 4

/-- A raw 2-bit addressing-mode tag (R13, R60). -/
abbrev ModeTag := BitVec 2

/-- A 4-bit opcode (R13, R60). -/
abbrev Opcode := BitVec 4

end Sys2Proof
end

