-- ==== Sys2Proof/Syntax.lean ====
section
/-! DEFINITION. The instructions: one constructor of `Instr` per row of spec/opcode_table.json. -/

namespace Sys2Proof

/-- An addressing mode, by its tag (30_encoding.md R64). -/
inductive AddrMode where
  /-- Tag 0, REGISTER: the field is a register index. -/
  | register
  /-- Tag 1, INDIRECT: the field names a register whose contents are a memory address. -/
  | indirect
  /-- Tag 2, IMMEDIATE: the field is a literal 0 to 15; never a write target. -/
  | immediate
  /-- Tag 3, "No other tag value is valid": a word may carry it, and resolving it faults (R97, D5). -/
  | invalid
deriving DecidableEq, Repr

/-- One operand of an instruction word: its addressing mode and its raw field (R14, R60). -/
structure Operand where
  mode : AddrMode
  field : OpField
deriving DecidableEq, Repr

/-- An instruction word, decoded. Every word but the placeholder carries two operands (R60, R67), and the machine
resolves both whatever the opcode (R98), so every other constructor keeps both. -/
inductive Instr where
  /-- The whole word 0 (R69, R94). -/
  | placeholder
  /-- Opcode 1 (R110). -/
  | mov (src dst : Operand)
  /-- Opcode 2 (R111). -/
  | cmp (src dst : Operand)
  /-- Opcode 3 (R112). -/
  | add (src dst : Operand)
  /-- Opcode 4, declared and not implemented (R121). -/
  | dec (src dst : Operand)
  /-- Opcode 5 (R115). -/
  | jlo (src dst : Operand)
  /-- Opcode 6, declared and not implemented (R122). -/
  | jnz (src dst : Operand)
  /-- Opcode 7 (R116). -/
  | jmp (src dst : Operand)
  /-- Opcode 15, the halt, spelled `NOP` (R120, C3). -/
  | nop (src dst : Operand)
  /-- Opcode 0 in a word that is not 0 (R70, R123). -/
  | reserved0 (src dst : Operand)
  /-- Opcode 8 (R123). -/
  | reserved8 (src dst : Operand)
  /-- Opcode 9 (R123). -/
  | reserved9 (src dst : Operand)
  /-- Opcode 10 (R123). -/
  | reserved10 (src dst : Operand)
  /-- Opcode 11 (R123). -/
  | reserved11 (src dst : Operand)
  /-- Opcode 12 (R123). -/
  | reserved12 (src dst : Operand)
  /-- Opcode 13 (R123). -/
  | reserved13 (src dst : Operand)
  /-- Opcode 14 (R123). -/
  | reserved14 (src dst : Operand)
deriving DecidableEq, Repr

/-- The two operands an instruction word carries, source first; the placeholder is not decoded and has none (R94). -/
def Instr.operands : Instr → Option (Operand × Operand)
  | .placeholder => none
  | .mov src dst => some (src, dst)
  | .cmp src dst => some (src, dst)
  | .add src dst => some (src, dst)
  | .dec src dst => some (src, dst)
  | .jlo src dst => some (src, dst)
  | .jnz src dst => some (src, dst)
  | .jmp src dst => some (src, dst)
  | .nop src dst => some (src, dst)
  | .reserved0 src dst => some (src, dst)
  | .reserved8 src dst => some (src, dst)
  | .reserved9 src dst => some (src, dst)
  | .reserved10 src dst => some (src, dst)
  | .reserved11 src dst => some (src, dst)
  | .reserved12 src dst => some (src, dst)
  | .reserved13 src dst => some (src, dst)
  | .reserved14 src dst => some (src, dst)

end Sys2Proof
end

