-- ==== Sys2Proof/WellFormed.lean ====
section
/-! DEFINITION. Which terms of `Instr` stand for a word. The types bound every field (R6, R72), so one check is left:
opcode 0 with every operand bit 0 is the placeholder and not a reserved instruction (R69, R70). -/

namespace Sys2Proof

/-- The operand whose six bits are all 0: how an absent operand is encoded (R67). -/
def Operand.absent : Operand := ⟨.register, 0#4⟩

/-- The instruction is one that a word decodes to. -/
def Instr.wf : Instr → Bool
  | .placeholder => true
  | .mov _ _ => true
  | .cmp _ _ => true
  | .add _ _ => true
  | .dec _ _ => true
  | .jlo _ _ => true
  | .jnz _ _ => true
  | .jmp _ _ => true
  | .nop _ _ => true
  | .reserved0 src dst => !(src == Operand.absent && dst == Operand.absent)
  | .reserved8 _ _ => true
  | .reserved9 _ _ => true
  | .reserved10 _ _ => true
  | .reserved11 _ _ => true
  | .reserved12 _ _ => true
  | .reserved13 _ _ => true
  | .reserved14 _ _ => true

end Sys2Proof
end

