-- ==== Sys2Proof/Decode.lean ====
section
/-! DEFINITION. Decoding a word into an instruction, and the encoder (30_encoding.md). -/

namespace Sys2Proof

/-- Why a fetched value is no instruction word. -/
inductive DecodeError where
  /-- The value is `2^16` or more (40_step_and_operands.md R95). No cell of a machine with `N = 16` holds such a value;
  the assembler's formula can make one (R84), and LOAD refuses it (R153). -/
  | overWide (value : Nat)
deriving DecidableEq, Repr

/-- The addressing mode of a tag (R64). -/
def AddrMode.ofTag (t : ModeTag) : AddrMode :=
  match t.toNat with
  | 0 => .register
  | 1 => .indirect
  | 2 => .immediate
  | _ => .invalid

/-- The tag of an addressing mode (R64). -/
def AddrMode.tag : AddrMode → ModeTag
  | .register => 0#2
  | .indirect => 1#2
  | .immediate => 2#2
  | .invalid => 3#2

/-- `opcode = w[15:12]` (R62). -/
def opcodeOf (w : InstrWord) : Opcode := w.extractLsb' 12 4

/-- `srcMode = w[11:10]` and `srcField = w[9:6]` (R62). -/
def srcOf (w : InstrWord) : Operand := ⟨.ofTag (w.extractLsb' 10 2), w.extractLsb' 6 4⟩

/-- `dstMode = w[5:4]` and `dstField = w[3:0]` (R62). -/
def dstOf (w : InstrWord) : Operand := ⟨.ofTag (w.extractLsb' 4 2), w.extractLsb' 0 4⟩

/-- The instruction of a 16-bit word: the opcode map of R68. Decoding cannot fail (R96). -/
def decodeWord (w : InstrWord) : Instr :=
  match (opcodeOf w).toNat with
  | 0 => if w = 0#16 then .placeholder else .reserved0 (srcOf w) (dstOf w)
  | 1 => .mov (srcOf w) (dstOf w)
  | 2 => .cmp (srcOf w) (dstOf w)
  | 3 => .add (srcOf w) (dstOf w)
  | 4 => .dec (srcOf w) (dstOf w)
  | 5 => .jlo (srcOf w) (dstOf w)
  | 6 => .jnz (srcOf w) (dstOf w)
  | 7 => .jmp (srcOf w) (dstOf w)
  | 8 => .reserved8 (srcOf w) (dstOf w)
  | 9 => .reserved9 (srcOf w) (dstOf w)
  | 10 => .reserved10 (srcOf w) (dstOf w)
  | 11 => .reserved11 (srcOf w) (dstOf w)
  | 12 => .reserved12 (srcOf w) (dstOf w)
  | 13 => .reserved13 (srcOf w) (dstOf w)
  | 14 => .reserved14 (srcOf w) (dstOf w)
  | _ => .nop (srcOf w) (dstOf w)

/-- Decoding any value a cell of any width could hold: a value of `2^16` or more is rejected by name (R95), every other
value is a word and decodes (R96). -/
def decode (v : Nat) : Except DecodeError Instr :=
  if v < 2 ^ 16 then .ok (decodeWord (BitVec.ofNat 16 v)) else .error (.overWide v)

/-! The encoder. -/

/-- The opcode of an instruction (R68). -/
def Instr.opcode : Instr → Opcode
  | .placeholder => 0#4
  | .mov _ _ => 1#4
  | .cmp _ _ => 2#4
  | .add _ _ => 3#4
  | .dec _ _ => 4#4
  | .jlo _ _ => 5#4
  | .jnz _ _ => 6#4
  | .jmp _ _ => 7#4
  | .nop _ _ => 15#4
  | .reserved0 _ _ => 0#4
  | .reserved8 _ _ => 8#4
  | .reserved9 _ _ => 9#4
  | .reserved10 _ _ => 10#4
  | .reserved11 _ _ => 11#4
  | .reserved12 _ _ => 12#4
  | .reserved13 _ _ => 13#4
  | .reserved14 _ _ => 14#4

/-- The six bits of an operand, its tag above its field. -/
def Operand.bits (o : Operand) : BitVec 6 := o.mode.tag ++ o.field

/-- `{opcode:4, srcMode:2, srcField:4, dstMode:2, dstField:4}` (R61). -/
def packWord (op : Opcode) (src dst : Operand) : InstrWord := op ++ src.bits ++ dst.bits

/-- The word of an instruction (R60, R61). The placeholder is the word 0 (R69). -/
def encode (i : Instr) : InstrWord :=
  match i.operands with
  | none => 0#16
  | some (src, dst) => packWord i.opcode src dst

/-- The source's encoding formula on naturals, with no bounds check: an operand value that does not fit its field
corrupts the fields above it (R61, R84). The toolchain's assembler uses it; the hardware does not. -/
def encodeFormula (opcode srcTag srcValue dstTag dstValue : Nat) : Nat :=
  opcode <<< 12 ||| (srcTag <<< 4 ||| srcValue) <<< 6 ||| (dstTag <<< 4 ||| dstValue)

/-- The instruction word among the table's `nbits` bits of `w`: the first, and only, 16-bit word (R63); bits above
`nbits` are 0. -/
def tableWord (nbits w : Nat) : InstrWord := BitVec.ofNat 16 (w % 2 ^ nbits)

/-- The instruction this decoder reads from the bits `w`, numbered as spec/opcode_table.json numbers them. -/
def decodeTableWord (nbits w : Nat) : Option Instr :=
  match decode (tableWord nbits w).toNat with
  | .ok i => some i
  | .error _ => none

end Sys2Proof
end

