-- ==== Sys2Proof/Machine/State.lean ====
section
/-! DEFINITION. The state of one CORE, whole (10_state.md R38, 60_exceptions.md R132), and the machine right after reset. -/

namespace Sys2Proof.Machine

/-- The causes of a fault (60_exceptions.md R131). A step that raises one TAKES it, as the spec describes: its next state
has `status = faulted cause` and the fault record (R103, R132, R133), so `step` never answers `Host.Outcome.fault` (log
entry 5). -/
inductive Fault where
  /-- Cause 1: raised by opcode 0 in a nonzero word, by opcodes 8 to 14 (R123) and by a value of `2^16` or more (R95).
  Safe: the spec states it. -/
  | unknownInstruction
  /-- Cause 2: raised by DEC and JNZ (R121, R122). Safe (D4: toward unprovable). -/
  | notImplemented
  /-- Cause 3: raised by MOV and ADD writing through an IMMEDIATE destination (R99). Safe: the spec states it. -/
  | invalidDestination
  /-- Cause 4: raised by resolving an operand of tag 3 (R97). Safe (D5: toward unprovable). -/
  | invalidAddressingMode
  /-- Cause 5: raised by an INDIRECT operand whose address is `CAPACITY` or more (R45, R97). Safe (D6: toward
  unprovable). -/
  | memoryOutOfRange
  /-- Cause 6: raised by a fetch outside the loaded program (R92). Safe for claims of normal termination; a claim that a
  run faults is no evidence about the reference (D7). -/
  | pcOutOfProgram
deriving DecidableEq, Repr

/-- Why the model gives an instruction no meaning. No instruction of this model is refused. -/
inductive Refusal where
  /-- Raised by an arm of `exec` whose instruction has no meaning yet. Safe. No arm does. -/
  | notModelled (mnemonic : String)
deriving DecidableEq, Repr

/-- The run-status latch (10_state.md R34). -/
inductive RunStatus where
  | ready
  | halted
  | faulted (cause : Fault)
deriving DecidableEq, Repr

/-- The fault record (60_exceptions.md R132): the cause, the pc of the faulting step, and the fetched word, or none when
the step fetched nothing. -/
structure FaultRecord where
  cause : Fault
  pc : Nat
  word : Option Word
deriving DecidableEq, Repr

/-- The memory array as plain data: (address, cell) pairs. The cell, 16 bits wide, is the smallest unit the hardware
addresses (20_memory.md R41, R48; log entry 1). The canonical form is `Memory.wf`, and what an unlisted address reads as
is `Memory.unlisted`, both in Machine/Ops.lean. -/
abbrev Memory := List (Nat × Word)

/-- The state of one CORE: `(x[0..15], M[0..CAPACITY-1], pc, flag, plen, status)`, the fault record, and the constants
`CAPACITY` and `OFFSET` (10_state.md, 60_exceptions.md R132). -/
structure State where
  /-- `x[0]` to `x[15]` (R20, R21). -/
  regs : Vector Word 16
  /-- `M` (20_memory.md R40). -/
  mem : Memory
  /-- The index of the next word; it never wraps (R24). -/
  pc : Nat
  /-- The compare flag, `true` for 1 (R28; log entry 12). -/
  flag : Bool
  /-- The program-length register (R33). -/
  plen : Nat
  /-- The run-status latch (R34). -/
  status : RunStatus
  /-- The fault record, `none` when no fault is latched (60_exceptions.md R132). -/
  record : Option FaultRecord
  /-- The configuration constant `CAPACITY` (R32). -/
  capacity : Nat
  /-- The configuration constant `OFFSET` (R32). -/
  offset : Nat
deriving DecidableEq, Repr

/-- The power-on state of a CORE constructed with `capacity` and `offset` (70_reset_and_hazards.md R151). -/
def State.powerOn (capacity offset : Nat) : State where
  regs := Vector.replicate 16 0#16
  mem := []
  pc := offset
  flag := false
  plen := 0
  status := .ready
  record := none
  capacity := capacity
  offset := offset

/-- The machine right after reset: a CORE constructed with the default `CAPACITY` (R5) and the `OFFSET` of log entry 3
(DESIGN CHOICE, unsafe), before any LOAD (R151). -/
def State.reset : State := State.powerOn Config.defaultCapacity Config.resetOffset

end Sys2Proof.Machine
end

