-- ==== Sys2Proof/Machine/Ops.lean ====
section
/-! DEFINITION. The named operations: memory, registers, the program counter, taking a fault and halting, and the LOAD
that leaves them. -/

namespace Sys2Proof.Machine

/-! Memory (20_memory.md). -/

/-- What an unlisted cell reads as: every cell is 0 at power-on (R47; log entry 2). -/
def Memory.unlisted : Word := 0#16

/-- The word of one cell, with no range check: `M[a]`. -/
def Memory.read : Memory → Nat → Word
  | [], _ => Memory.unlisted
  | (b, v) :: rest, a => if a = b then v else Memory.read rest a

/-- The memory with cell `a` holding `v`, with no range check: `M[a] <- v`. Writing what an unlisted cell reads as removes
the entry. -/
def Memory.write : Memory → Nat → Word → Memory
  | [], a, v => if v = Memory.unlisted then [] else [(a, v)]
  | (b, u) :: rest, a, v =>
    if a < b then
      if v = Memory.unlisted then (b, u) :: rest else (a, v) :: (b, u) :: rest
    else if a = b then
      if v = Memory.unlisted then rest else (a, v) :: rest
    else (b, u) :: Memory.write rest a v

/-- Every address of the list is above `a`. -/
def Memory.above (a : Nat) : Memory → Bool
  | [] => true
  | (b, _) :: _ => decide (a < b)

/-- The canonical form: addresses strictly rising, and no entry equal to what an unlisted cell reads as. -/
def Memory.wf : Memory → Bool
  | [] => true
  | (a, v) :: rest => decide (v ≠ Memory.unlisted) && Memory.above a rest && Memory.wf rest

/-- Every listed cell exists, that is, lies below `capacity` (R40). -/
def Memory.within (capacity : Nat) (m : Memory) : Bool := m.all fun c => decide (c.1 < capacity)

/-- Zero in every cell of `[lo, hi)`: the first loop of LOAD (70_reset_and_hazards.md R152). -/
def Memory.zeroFill (m : Memory) (lo hi : Nat) : Memory := m.filter fun c => decide (c.1 < lo) || decide (hi ≤ c.1)

/-- The words stored one after another from cell `a`: the second loop of LOAD (R152). -/
def Memory.storeWords (m : Memory) (a : Nat) : List Nat → Memory
  | [] => m
  | w :: ws => Memory.storeWords (m.write a (BitVec.ofNat 16 w)) (a + 1) ws

/-- `MemRead(a, 1)` (R45). -/
def memRead (s : State) (a : Nat) : Except Fault Word :=
  if s.capacity ≤ a then .error .memoryOutOfRange else .ok (s.mem.read a)

/-- `MemWrite(a, 1, v)` (R46). -/
def memWrite (s : State) (a : Nat) (v : Word) : Except Fault State :=
  if s.capacity ≤ a then .error .memoryOutOfRange else .ok { s with mem := s.mem.write a v }

/-! Registers (10_state.md R20, R22). No register is hardwired, and a 4-bit index is never out of range (00_scope.md R6). -/

/-- `x[f]`. -/
def State.reg (s : State) (f : OpField) : Word := s.regs[f.toNat]'f.isLt

/-- `x[f] <- v`. -/
def State.setReg (s : State) (f : OpField) (v : Word) : State := { s with regs := s.regs.set f.toNat v f.isLt }

/-! The program counter and the flag (10_state.md R24, R28). -/

/-- `pc <- pc + 1` (40_step_and_operands.md R102). -/
def State.advance (s : State) : State := { s with pc := s.pc + 1 }

/-- `pc <- OFFSET + srcField`, the target of JLO and JMP: the raw field, unscaled (30_encoding.md R66). -/
def State.jumpTo (s : State) (f : OpField) : State := { s with pc := s.offset + f.toNat }

/-- `flag <- b`. -/
def State.setFlag (s : State) (b : Bool) : State := { s with flag := b }

/-! The two ways a run stops, and the way out (10_state.md R34). -/

/-- TAKING A FAULT, the one entry of 60_exceptions.md R132 and R133: the status latches the cause, the record takes the
cause, the pc and the fetched word (`none` when nothing was fetched), and nothing else changes (R103). -/
def State.takeFault (s : State) (cause : Fault) (word : Option Word) : State :=
  { s with status := .faulted cause, record := some ⟨cause, s.pc, word⟩ }

/-- `status <- HALTED` (43_halt_unimplemented_unknown.md R120). -/
def State.halt (s : State) : State := { s with status := .halted }

/-- The writes of a LOAD that is accepted (70_reset_and_hazards.md R152). It is the only way out of HALTED and FAULTED
(60_exceptions.md R139, R146): the hardware has no return from a fault. -/
def State.startRun (s : State) (words : List Nat) : State :=
  { s with
    mem := (s.mem.zeroFill s.offset s.capacity).storeWords s.offset words
    pc := s.offset
    plen := words.length
    status := .ready
    record := none }

/-- Why LOAD refuses (70_reset_and_hazards.md R153). -/
inductive LoadError where
  /-- More words than the program region has cells. -/
  | capacityExceeded
  /-- A word of `2^16` or more. -/
  | wordOutOfRange
deriving DecidableEq, Repr

/-- `LOAD(words)` (R152), or its refusal, which changes nothing; CapacityExceeded is reported first (R153). -/
def State.loadProgram (s : State) (words : List Nat) : Except LoadError State :=
  if s.capacity - s.offset < words.length then .error .capacityExceeded
  else if words.any (fun w => decide (2 ^ 16 ≤ w)) then .error .wordOutOfRange
  else .ok (s.startRun words)

/-! The outcome of a step (60_exceptions.md R130). -/

/-- What a step reports to the host. -/
inductive StepOutcome where
  | continuing
  | halted
  | fault (cause : Fault)
deriving DecidableEq, Repr

/-- The outcome of the step that left this state: Continuing leaves READY, Halted leaves HALTED and Fault(c) leaves
FAULTED(c) (40_step_and_operands.md R103), and a step of a stopped core repeats its outcome (R91). -/
def State.outcome (s : State) : StepOutcome :=
  match s.status with
  | .ready => .continuing
  | .halted => .halted
  | .faulted c => .fault c

/-- The code of an outcome (R130). -/
def StepOutcome.code : StepOutcome → Nat
  | .continuing => 0
  | .halted => 1
  | .fault _ => 2

/-- The code of a fault cause (R131). -/
def Fault.code : Fault → Nat
  | .unknownInstruction => 1
  | .notImplemented => 2
  | .invalidDestination => 3
  | .invalidAddressingMode => 4
  | .memoryOutOfRange => 5
  | .pcOutOfProgram => 6

end Sys2Proof.Machine
end

