-- ==== Sys2Proof/Machine/Operands.lean ====
section
/-! DEFINITION. The addressing-mode resolver, and how a step ends (40_step_and_operands.md). -/

namespace Sys2Proof.Machine

/-- The literal of an IMMEDIATE operand: `zext_N` of the raw field, 0 to 15 (30_encoding.md R65). -/
def immediateValue (f : OpField) : Word := f.setWidth 16

/-- `resolveRead(mode, f)` (R97). -/
def resolveRead (s : State) (o : Operand) : Except Fault Word :=
  match o.mode with
  | .register => .ok (s.reg o.field)
  | .indirect => memRead s (s.reg o.field).toNat
  | .immediate => .ok (immediateValue o.field)
  | .invalid => .error .invalidAddressingMode

/-- Both operands, the source first (R98). -/
def resolveOperands (s : State) (src dst : Operand) : Except Fault (Word × Word) := do
  let srcValue ← resolveRead s src
  let dstValue ← resolveRead s dst
  pure (srcValue, dstValue)

/-- `resolveWrite(mode, f, v)` (R99). A step never reaches it with tag 3, because resolution has already faulted (R98);
alone, it answers the fault of that resolution (log entry 13). -/
def resolveWrite (s : State) (o : Operand) (v : Word) : Except Fault State :=
  match o.mode with
  | .register => .ok (s.setReg o.field v)
  | .indirect => memWrite s (s.reg o.field).toNat v
  | .immediate => .error .invalidDestination
  | .invalid => .error .invalidAddressingMode

/-- How the step of the fetched instruction `i` ends (R103): a result commits its writes; a fault discards them and
commits the fault entry, whose word is the fetched one, the word of `i` (log entry 7). -/
def commit (i : Instr) (s : State) (result : Except Fault State) : Host.Outcome State Fault Refusal :=
  match result with
  | .ok t => .next t
  | .error cause => .next (s.takeFault cause (some (encode i)))

end Sys2Proof.Machine
end

