-- ==== Sys2Proof/Machine/Control.lean ====
section
/-! DEFINITION. JLO and JMP (42_control_ops.md), and the placeholder word (40_step_and_operands.md R94). -/

namespace Sys2Proof.Machine

/-- The placeholder: the pc advances, and nothing is resolved (R94). -/
def execPlaceholder (s : State) : Host.Outcome State Fault Refusal :=
  commit .placeholder s (.ok s.advance)

/-- JLO: the resolved values are discarded, their faults stand (R98), and the target is the raw `srcField` (R115). -/
def execJlo (src dst : Operand) (s : State) : Host.Outcome State Fault Refusal :=
  commit (.jlo src dst) s do
    let _ ← resolveOperands s src dst
    pure (if s.flag then s.jumpTo src.field else s.advance)

/-- JMP (R116). -/
def execJmp (src dst : Operand) (s : State) : Host.Outcome State Fault Refusal :=
  commit (.jmp src dst) s do
    let _ ← resolveOperands s src dst
    pure (s.jumpTo src.field)

end Sys2Proof.Machine
end

