-- ==== Sys2Proof/Machine/Flags.lean ====
section
/-! DEFINITION. The arithmetic of the data path and the one flag computation (41_data_ops.md R113). -/

namespace Sys2Proof.Machine

/-- The flag CMP computes: 1 if `dstValue < srcValue` as naturals, else 0 (R111, D3). -/
def compareFlag (dstValue srcValue : Word) : Bool := decide (dstValue.toNat < srcValue.toNat)

/-- The sum ADD computes: `(dstValue + srcValue) mod 2^N`, with no carry and no overflow kept (R112, D2). -/
def wrappingSum (dstValue srcValue : Word) : Word :=
  BitVec.ofNat 16 ((dstValue.toNat + srcValue.toNat) % 2 ^ 16)

end Sys2Proof.Machine
end

