-- ==== Sys2Proof/Machine/Data.lean ====
section
/-! DEFINITION. MOV, CMP and ADD (41_data_ops.md). -/

namespace Sys2Proof.Machine

/-- MOV (R110). -/
def execMov (src dst : Operand) (s : State) : Host.Outcome State Fault Refusal :=
  commit (.mov src dst) s do
    let (srcValue, _) ← resolveOperands s src dst
    let t ← resolveWrite s dst srcValue
    pure t.advance

/-- CMP (R111). -/
def execCmp (src dst : Operand) (s : State) : Host.Outcome State Fault Refusal :=
  commit (.cmp src dst) s do
    let (srcValue, dstValue) ← resolveOperands s src dst
    pure (s.setFlag (compareFlag dstValue srcValue)).advance

/-- ADD (R112). -/
def execAdd (src dst : Operand) (s : State) : Host.Outcome State Fault Refusal :=
  commit (.add src dst) s do
    let (srcValue, dstValue) ← resolveOperands s src dst
    let t ← resolveWrite s dst (wrappingSum dstValue srcValue)
    pure t.advance

end Sys2Proof.Machine
end

