-- ==== Sys2Proof/Machine/System.lean ====
section
/-! DEFINITION. The halt, the unimplemented and the reserved opcodes (43_halt_unimplemented_unknown.md). -/

namespace Sys2Proof.Machine

/-- NOP, the halt (R120): any operand fields, once they resolve (D9). -/
def execNop (src dst : Operand) (s : State) : Host.Outcome State Fault Refusal :=
  commit (.nop src dst) s do
    let _ ← resolveOperands s src dst
    pure s.advance.halt

/-- An instruction that resolves its operands and then raises `cause`: DEC, JNZ and the reserved opcodes. A resolution
fault comes first (60_exceptions.md R135). -/
def faultAfterResolution (i : Instr) (src dst : Operand) (cause : Fault) (s : State) :
    Host.Outcome State Fault Refusal :=
  commit i s do
    let _ ← resolveOperands s src dst
    throw cause

/-- DEC: declared, no semantics, fails fast (R121). -/
def execDec (src dst : Operand) (s : State) : Host.Outcome State Fault Refusal :=
  faultAfterResolution (.dec src dst) src dst .notImplemented s

/-- JNZ: declared, no semantics, fails fast (R122). -/
def execJnz (src dst : Operand) (s : State) : Host.Outcome State Fault Refusal :=
  faultAfterResolution (.jnz src dst) src dst .notImplemented s

/-- Opcode 0 in a nonzero word (R123). -/
def execReserved0 (src dst : Operand) (s : State) : Host.Outcome State Fault Refusal :=
  faultAfterResolution (.reserved0 src dst) src dst .unknownInstruction s

/-- Opcode 8 (R123). -/
def execReserved8 (src dst : Operand) (s : State) : Host.Outcome State Fault Refusal :=
  faultAfterResolution (.reserved8 src dst) src dst .unknownInstruction s

/-- Opcode 9 (R123). -/
def execReserved9 (src dst : Operand) (s : State) : Host.Outcome State Fault Refusal :=
  faultAfterResolution (.reserved9 src dst) src dst .unknownInstruction s

/-- Opcode 10 (R123). -/
def execReserved10 (src dst : Operand) (s : State) : Host.Outcome State Fault Refusal :=
  faultAfterResolution (.reserved10 src dst) src dst .unknownInstruction s

/-- Opcode 11 (R123). -/
def execReserved11 (src dst : Operand) (s : State) : Host.Outcome State Fault Refusal :=
  faultAfterResolution (.reserved11 src dst) src dst .unknownInstruction s

/-- Opcode 12 (R123). -/
def execReserved12 (src dst : Operand) (s : State) : Host.Outcome State Fault Refusal :=
  faultAfterResolution (.reserved12 src dst) src dst .unknownInstruction s

/-- Opcode 13 (R123). -/
def execReserved13 (src dst : Operand) (s : State) : Host.Outcome State Fault Refusal :=
  faultAfterResolution (.reserved13 src dst) src dst .unknownInstruction s

/-- Opcode 14 (R123). -/
def execReserved14 (src dst : Operand) (s : State) : Host.Outcome State Fault Refusal :=
  faultAfterResolution (.reserved14 src dst) src dst .unknownInstruction s

end Sys2Proof.Machine
end

