-- ==== Sys2Proof/Machine/Dispatch.lean ====
section
/-! DEFINITION. One arm per instruction. -/

namespace Sys2Proof.Machine

-- The dispatch of 40_step_and_operands.md R101; the arms follow spec/opcode_table.json.
def exec (i : Instr) (s : State) : Host.Outcome State Fault Refusal :=
  match i with
  | .placeholder => Sys2Proof.Machine.execPlaceholder s
  | .mov src dst => Sys2Proof.Machine.execMov src dst s
  | .cmp src dst => Sys2Proof.Machine.execCmp src dst s
  | .add src dst => Sys2Proof.Machine.execAdd src dst s
  | .dec src dst => Sys2Proof.Machine.execDec src dst s
  | .jlo src dst => Sys2Proof.Machine.execJlo src dst s
  | .jnz src dst => Sys2Proof.Machine.execJnz src dst s
  | .jmp src dst => Sys2Proof.Machine.execJmp src dst s
  | .nop src dst => Sys2Proof.Machine.execNop src dst s
  | .reserved0 src dst => Sys2Proof.Machine.execReserved0 src dst s
  | .reserved8 src dst => Sys2Proof.Machine.execReserved8 src dst s
  | .reserved9 src dst => Sys2Proof.Machine.execReserved9 src dst s
  | .reserved10 src dst => Sys2Proof.Machine.execReserved10 src dst s
  | .reserved11 src dst => Sys2Proof.Machine.execReserved11 src dst s
  | .reserved12 src dst => Sys2Proof.Machine.execReserved12 src dst s
  | .reserved13 src dst => Sys2Proof.Machine.execReserved13 src dst s
  | .reserved14 src dst => Sys2Proof.Machine.execReserved14 src dst s

end Sys2Proof.Machine
end

