-- ==== Sys2Proof/Machine/Fetch.lean ====
section
/-! DEFINITION. What a step does before it dispatches, and how an instruction is placed where the next step fetches
(40_step_and_operands.md R91-R96). -/

namespace Sys2Proof.Machine

/-- `OFFSET <= pc and pc < OFFSET + plen` (R92). -/
abbrev State.pcInProgram (s : State) : Prop := s.offset ≤ s.pc ∧ s.pc < s.offset + s.plen

/-- `w <- M[pc]` (R93). The range check of R92 has been made, and no other is (log entry 11). -/
def State.fetchWord (s : State) : Word := s.mem.read s.pc

/-- What a step finds to do. -/
inductive Fetched where
  /-- The core is HALTED or FAULTED: nothing changes (R91). -/
  | stopped
  /-- The fetch raises a fault; the word is the fetched one, if any. -/
  | trap (cause : Fault) (word : Option Word)
  /-- This instruction is to be executed. -/
  | run (i : Instr)
deriving DecidableEq, Repr

/-- The status check (R91), the range check (R92), the fetch (R93), the over-wide check (R95) and the decoding (R96). -/
def fetch (s : State) : Fetched :=
  match s.status with
  | .halted => .stopped
  | .faulted _ => .stopped
  | .ready =>
    if s.pcInProgram then
      match decode s.fetchWord.toNat with
      | .ok i => .run i
      | .error _ => .trap .unknownInstruction (some s.fetchWord)
    else .trap .pcOutOfProgram none

/-- The state with the word `w` where the next step fetches: in the cell at `pc` when the core is about to fetch there,
and otherwise (before any LOAD, after a halt or a fault, outside the program) by the host's LOAD of the one-word program
`w` (70_reset_and_hazards.md R152). A machine whose program region is empty can hold no program and stays as it is.
Log entry 10. -/
def State.placeInstr (s : State) (w : InstrWord) : State :=
  if s.status = .ready ∧ s.pcInProgram then { s with mem := s.mem.write s.pc w }
  else
    match s.loadProgram [w.toNat] with
    | .ok t => t
    | .error _ => s

end Sys2Proof.Machine
end

