-- ==== Sys2Proof/Machine/Step.lean ====
section
/-! DEFINITION. STEP (40_step_and_operands.md R90, R104). -/

namespace Sys2Proof.Machine

/-- One STEP. Its outcome in the spec's sense is `State.outcome` of the next state. -/
def step (s : State) : Host.Outcome State Fault Refusal :=
  match fetch s with
  | .stopped => .next s
  | .trap cause word => .next (s.takeFault cause word)
  | .run i => exec i s

/-- The state whose next step fetches and runs the instruction with the bits `w` (`State.placeInstr`; log entry 10). -/
def State.withFetchWord (s : State) (nbits w : Nat) : State := s.placeInstr (tableWord nbits w)

end Sys2Proof.Machine
end

