-- ==== Sys2Proof/Machine/Assembler.lean ====
section
/-! DEFINITION. The toolchain's two-pass assembler (30_encoding.md R73-R84). It is not part of the hardware (00_scope.md
R4), and no definition of the machine uses it; it turns source text into the words a host LOADs. Text is a list of
characters. What the spec leaves open in it is decided in log entries 14 and 15. -/

namespace Sys2Proof.Assembler

/-- A piece of source text. -/
abbrev Text := List Char

/-- Why assembly fails; it is all-or-nothing (R79). -/
inductive AsmError where
  /-- "mnemonic not in the opcode table". -/
  | unknownInstruction
  /-- "operand token matches none of the recognized forms", an undeclared label included (R80). -/
  | unknownOperand
  /-- `Rn`, `@Rn` or `@n` with `n` outside 0 to 15, or malformed digits after the `R` of `Rn` (R76, R82). -/
  | registerOutOfRange
  /-- A label declared twice: refused (93_implementation_defined.md). -/
  | duplicateLabel
  /-- More than two operands. DESIGN CHOICE: the spec gives no meaning to a third. Log entry 15. -/
  | tooManyOperands
deriving DecidableEq, Repr

/-- A source line, classified (R73). -/
inductive Line where
  | blank
  | label (name : Text)
  | instr (mnemonic operands : Text)
deriving DecidableEq, Repr

/-- The text without white space at its ends (R82). -/
def trim (t : Text) : Text := ((t.dropWhile Char.isWhitespace).reverse.dropWhile Char.isWhitespace).reverse

/-- The pieces between occurrences of `sep`. -/
def splitAt (sep : Char) : Text → List Text
  | [] => [[]]
  | c :: cs =>
    if c = sep then [] :: splitAt sep cs
    else match splitAt sep cs with
      | [] => [[c]]
      | piece :: more => (c :: piece) :: more

/-- The decimal natural that `acc` followed by the text's digits stands for, or none at a character that is no digit. -/
def decimalFrom (acc : Nat) : Text → Option Nat
  | [] => some acc
  | c :: cs => if c.isDigit then decimalFrom (acc * 10 + (c.toNat - '0'.toNat)) cs else none

/-- The value of a decimal literal (R82). -/
def decimal : Text → Option Nat
  | [] => none
  | c :: cs => decimalFrom 0 (c :: cs)

/-- What kind of line a line is: blank, a label line `identifier:`, or an instruction line (R73, R77). -/
def classify (t : Text) : Line :=
  match (trim t).reverse with
  | [] => .blank
  | ':' :: c :: name => .label (trim (c :: name).reverse)
  | _ => .instr ((trim t).takeWhile fun c => !c.isWhitespace) (trim ((trim t).dropWhile fun c => !c.isWhitespace))

/-- The opcode of a mnemonic, in any case (R68, R74). -/
def opcodeOfMnemonic (t : Text) : Option Nat :=
  match t.map Char.toUpper with
  | ['M', 'O', 'V'] => some 1
  | ['C', 'M', 'P'] => some 2
  | ['A', 'D', 'D'] => some 3
  | ['D', 'E', 'C'] => some 4
  | ['J', 'L', 'O'] => some 5
  | ['J', 'N', 'Z'] => some 6
  | ['J', 'M', 'P'] => some 7
  | ['N', 'O', 'P'] => some 15
  | _ => none

/-- Pass 1: a label's position is the instruction lines seen so far plus the labels recorded so far (R77). Blank lines are
not counted (R82). -/
def labelTable (instrs labels : Nat) : List Line → List (Text × Nat)
  | [] => []
  | .blank :: rest => labelTable instrs labels rest
  | .label name :: rest => (name, instrs + labels) :: labelTable instrs (labels + 1) rest
  | .instr _ _ :: rest => labelTable (instrs + 1) labels rest

/-- The position of a label. -/
def labelPosition (name : Text) : List (Text × Nat) → Option Nat
  | [] => none
  | (n, p) :: rest => if name = n then some p else labelPosition name rest

/-- A label is declared twice. -/
def hasDuplicate : List (Text × Nat) → Bool
  | [] => false
  | (n, _) :: rest => rest.any (fun e => e.1 == n) || hasDuplicate rest

/-- A register operand with this mode tag; a number of 16 or more is out of range (R76, R82). -/
def registerOperand (tag n : Nat) : Except AsmError (Nat × Nat) :=
  if n < 16 then .ok (tag, n) else .error .registerOutOfRange

/-- A label operand: tag 0 and the label's position, with no bounds check (R76, R84). -/
def labelOperand (labels : List (Text × Nat)) (t : Text) : Except AsmError (Nat × Nat) :=
  match labelPosition t labels with
  | some p => .ok (0, p)
  | none => .error .unknownOperand

/-- The operand of the token `t`, which is `@` or `@R` and then `digits`. The register-range error for malformed digits is
the `Rn` row's alone (R76): without a decimal number the token is none of the INDIRECT forms. -/
def indirectOperand (labels : List (Text × Nat)) (t digits : Text) : Except AsmError (Nat × Nat) :=
  match decimal digits with
  | some n => registerOperand 1 n
  | none => labelOperand labels t

/-- The mode tag and the field value of an operand token, its forms tried in the order of R76 (R82). -/
def operand (labels : List (Text × Nat)) (t : Text) : Except AsmError (Nat × Nat) :=
  match t with
  | 'R' :: digits =>
    match decimal digits with
    | some n => registerOperand 0 n
    | none => .error .registerOutOfRange
  | '@' :: 'R' :: digits => indirectOperand labels t digits
  | '@' :: digits => indirectOperand labels t digits
  | '#' :: digits =>
    match decimal digits with
    | some n => .ok (2, n)
    | none => labelOperand labels t
  | _ => labelOperand labels t

/-- The source and the destination of an operand string, the first token the source (R75); an absent operand is `(0, 0)`
(R67). -/
def operandPair (labels : List (Text × Nat)) (t : Text) : Except AsmError ((Nat × Nat) × (Nat × Nat)) :=
  match t with
  | [] => .ok ((0, 0), (0, 0))
  | _ =>
    match (splitAt ',' t).map trim with
    | [a] => do
      let src ← operand labels a
      pure (src, (0, 0))
    | [a, b] => do
      let src ← operand labels a
      let dst ← operand labels b
      pure (src, dst)
    | _ => .error .tooManyOperands

/-- The word of an instruction line, by the formula of R61, which may exceed 16 bits (R84). -/
def instrWord (labels : List (Text × Nat)) (mnemonic operands : Text) : Except AsmError Nat :=
  match opcodeOfMnemonic mnemonic with
  | none => .error .unknownInstruction
  | some opcode => do
    let (src, dst) ← operandPair labels operands
    pure (encodeFormula opcode src.1 src.2 dst.1 dst.2)

/-- Pass 2: one word for every line that is not blank, the placeholder word 0 for a label line (R78). -/
def emit (labels : List (Text × Nat)) : List Line → Except AsmError (List Nat)
  | [] => .ok []
  | .blank :: rest => emit labels rest
  | .label _ :: rest => do
    let ws ← emit labels rest
    pure (0 :: ws)
  | .instr mnemonic operands :: rest => do
    let w ← instrWord labels mnemonic operands
    let ws ← emit labels rest
    pure (w :: ws)

/-- The words of classified lines, or the error. -/
def assembleLines (lines : List Line) : Except AsmError (List Nat) :=
  if hasDuplicate (labelTable 0 0 lines) then .error .duplicateLabel else emit (labelTable 0 0 lines) lines

/-- The words of a source text, one statement a line (R73). -/
def assemble (source : Text) : Except AsmError (List Nat) := assembleLines ((splitAt '\n' source).map classify)

end Sys2Proof.Assembler
end

