-- ==== Sys2Proof/Machine/Driver.lean ====
section
/-! DEFINITION. The host's five operations (70_reset_and_hazards.md R150-R158). Each is atomic and falls between steps (log
entry 6). -/

namespace Sys2Proof.Machine

/-- `construct(CAPACITY, OFFSET)`: the power-on state, or a refusal (R150, R151). -/
def State.construct (capacity offset : Nat) : Option State :=
  if 1 ≤ capacity ∧ offset ≤ capacity then some (State.powerOn capacity offset) else none

/-- `HOSTWRITE(a, v)`: one cell of the data region, in any status; refused outside it or for a value that does not fit
(R157, R158). -/
def State.hostWrite (s : State) (a v : Nat) : Option State :=
  if a < s.offset ∧ v < 2 ^ 16 then
    some { s with mem := s.mem.write a (BitVec.ofNat 16 v) }
  else none

/-- What the host reads of a CORE (10_state.md R37, 70_reset_and_hazards.md R157). -/
structure Snapshot where
  x : List Word
  cells : List Word
  pc : Nat
  flag : Bool
  plen : Nat
  status : RunStatus
  record : Option FaultRecord
deriving DecidableEq, Repr

/-- The snapshot: the 16 registers, the full memory array, and the rest (R37). -/
def State.snapshot (s : State) : Snapshot where
  x := s.regs.toList
  cells := (List.range s.capacity).map s.mem.read
  pc := s.pc
  flag := s.flag
  plen := s.plen
  status := s.status
  record := s.record

/-- An operation the host performs on a constructed CORE (R157). -/
inductive HostOp where
  | hostWrite (a v : Nat)
  | load (words : List Nat)
  | step
  | snapshot
deriving DecidableEq, Repr

/-- What the host gets back (R157). -/
inductive HostReply where
  /-- The write or the load was done. -/
  | ok
  /-- HOSTWRITE was refused. -/
  | writeRefused
  /-- LOAD was refused. -/
  | loadRefused (e : LoadError)
  /-- The outcome of a STEP. -/
  | outcome (o : StepOutcome)
  /-- The model gave the STEP no next state; no state of this model reaches it. -/
  | noOutcome
  /-- The snapshot. -/
  | snapshot (v : Snapshot)
deriving DecidableEq, Repr

/-- One host operation: the state after it, and the reply. A refused operation changes nothing (R153, R157). -/
def hostApply (op : HostOp) (s : State) : State × HostReply :=
  match op with
  | .hostWrite a v =>
    match s.hostWrite a v with
    | some t => (t, .ok)
    | none => (s, .writeRefused)
  | .load words =>
    match s.loadProgram words with
    | .ok t => (t, .ok)
    | .error e => (s, .loadRefused e)
  | .step =>
    match Sys2Proof.Machine.step s with
    | .next t => (t, .outcome t.outcome)
    | .fault _ => (s, .noOutcome)
    | .refused _ => (s, .noOutcome)
  | .snapshot => (s, .snapshot s.snapshot)

end Sys2Proof.Machine
end

