-- ==== Sys2Proof/Safety.lean ====
section
/-! DEFINITION. The words in which statements speak of the machine: the invariant of its states, the value and the fault
of an operand, the effect of a write through an operand, the first fault of a step, and how a run ends. -/

namespace Sys2Proof.Machine

/-- The status latch and the fault record agree: a record stands exactly while the status is FAULTED, with the same cause
and the pc of the faulting step, which stays (10_state.md R34, 60_exceptions.md R132, R133). -/
def State.latchAgrees (s : State) : Bool :=
  match s.status, s.record with
  | .ready, none => true
  | .halted, none => true
  | .faulted c, some r => decide (r.cause = c) && decide (r.pc = s.pc) && (r.word.isNone == decide (c = .pcOutOfProgram))
  | _, _ => false

/-- What holds of every state a host can bring a CORE to: the ranges of 10_state.md R38, and the canonical form of the
memory. -/
structure State.Inv (s : State) : Prop where
  /-- The memory is in canonical form (log entry 1). -/
  memCanonical : s.mem.wf = true
  /-- No cell at or above CAPACITY is listed (20_memory.md R40). -/
  memWithin : s.mem.within s.capacity = true
  /-- `1 <= CAPACITY` (70_reset_and_hazards.md R150). -/
  capacityPos : 1 ≤ s.capacity
  /-- `OFFSET <= CAPACITY` (R150). -/
  offsetLe : s.offset ≤ s.capacity
  /-- `plen` is in `[0, CAPACITY - OFFSET]` (R33). -/
  plenLe : s.plen ≤ s.capacity - s.offset
  /-- `pc` starts at OFFSET and only advances or jumps to `OFFSET + k` (R26). -/
  offsetLePc : s.offset ≤ s.pc
  /-- `pc` is in `[0, max(CAPACITY, OFFSET + 16)]` (R24). -/
  pcLe : s.pc ≤ max s.capacity (s.offset + 16)
  /-- The latch and the record agree (R34, R132). -/
  latch : s.latchAgrees = true

/-- The fault that resolving an operand raises, if any (40_step_and_operands.md R97, 60_exceptions.md R135). -/
def State.operandFault (s : State) (o : Operand) : Option Fault :=
  match o.mode with
  | .register => none
  | .indirect => if s.capacity ≤ (s.reg o.field).toNat then some .memoryOutOfRange else none
  | .immediate => none
  | .invalid => some .invalidAddressingMode

/-- The value of an operand that resolves: the read column of R97's table. -/
def State.operandValue (s : State) (o : Operand) : Word :=
  match o.mode with
  | .register => s.reg o.field
  | .indirect => s.mem.read (s.reg o.field).toNat
  | .immediate => BitVec.ofNat 16 o.field.toNat
  | .invalid => 0#16

/-- The two operands of an instruction both resolve. -/
def State.Resolves (s : State) (src dst : Operand) : Prop := s.operandFault src = none ∧ s.operandFault dst = none

/-- `t` differs from `s` in its registers and memory as one write of `v` through the operand `dst` makes it: the write
column of R99's table. The cell written is the one at `x[dstField]` as it stood in `s` (R100). -/
def Wrote (s t : State) (dst : Operand) (v : Word) : Prop :=
  (dst.mode = .register →
    (∀ f, t.reg f = if f = dst.field then v else s.reg f) ∧ ∀ a, t.mem.read a = s.mem.read a) ∧
  (dst.mode = .indirect →
    (∀ f, t.reg f = s.reg f) ∧ ∀ a, t.mem.read a = if a = (s.reg dst.field).toNat then v else s.mem.read a)

/-- `t` has the program length, the latch, the record and the configuration of `s`. -/
def SameControl (s t : State) : Prop :=
  t.plen = s.plen ∧ t.status = s.status ∧ t.record = s.record ∧ t.capacity = s.capacity ∧ t.offset = s.offset

/-- The fault an opcode raises of its own (60_exceptions.md R131, R135 item 5). -/
def opcodeFault (op : Opcode) : Option Fault :=
  match op.toNat with
  | 1 => none
  | 2 => none
  | 3 => none
  | 4 => some .notImplemented
  | 5 => none
  | 6 => some .notImplemented
  | 7 => none
  | 15 => none
  | _ => some .unknownInstruction

/-- The first fault, in the order of 60_exceptions.md R135, that applies to the step of a READY core; none where the step
does not fault. -/
def State.firstFault (s : State) : Option Fault :=
  if ¬(s.offset ≤ s.pc ∧ s.pc < s.offset + s.plen) then some .pcOutOfProgram
  else if s.mem.read s.pc = 0#16 then none
  else if 2 ^ 16 ≤ (s.mem.read s.pc).toNat then some .unknownInstruction
  else
    (s.operandFault (srcOf (s.mem.read s.pc))).or
      ((s.operandFault (dstOf (s.mem.read s.pc))).or
        ((opcodeFault (opcodeOf (s.mem.read s.pc))).or
          (if (opcodeOf (s.mem.read s.pc) = 1#4 ∨ opcodeOf (s.mem.read s.pc) = 3#4) ∧
              (dstOf (s.mem.read s.pc)).mode = .immediate
            then some .invalidDestination else none)))

/-- Running `k` steps from `s` reaches `t`. -/
def Reaches (s : State) (k : Nat) (t : State) : Prop := Host.Core.run Sys2Proof.core k s = .next t

/-- The run from `s` ends with the outcome `o` at step `k + 1`: the first step that does not return Continuing
(70_reset_and_hazards.md R160). -/
def RunEndsAt (s : State) (k : Nat) (o : StepOutcome) : Prop :=
  o ≠ .continuing ∧
  (∀ j t, 1 ≤ j → j ≤ k → Reaches s j t → t.outcome = .continuing) ∧
  ∃ t, Reaches s (k + 1) t ∧ t.outcome = o

/-- A safe run: it ends normally, by the halt (R159, R160). -/
def EndsNormally (s : State) : Prop := ∃ k, RunEndsAt s k .halted

end Sys2Proof.Machine
end

