-- ==== Sys2Proof/Certificates/Slice0/Obligations.lean ====
section
/-! DEFINITION. The statements for the provers. Each docstring names the rule of spec/ it comes from. -/

open Sys2Proof Sys2Proof.Machine

/-! ## Encoding (30_encoding.md) -/

/-- Decoding the word of a well-formed instruction gives the instruction back, every operand at every value (R61, R62,
and test vector S2). -/
def Obligations.DecodeOfEncodeIsTheInstruction : Prop :=
  ∀ i : Instr, i.wf = true → decode (encode i).toNat = .ok i

/-- Decoding cannot fail on a word, gives a well-formed instruction whatever its fields (R72, R96), and drops no bit. -/
def Obligations.EveryWordDecodesAndEncodesBack : Prop :=
  ∀ w : InstrWord, ∃ i, decode w.toNat = .ok i ∧ i.wf = true ∧ encode i = w

/-- R61: the formula, when every field fits, is the concatenation of R9; and the encoder's word is the formula's. -/
def Obligations.FormulaIsConcatenation : Prop :=
  (∀ op sm sf dm df : Nat, op < 16 → sm < 4 → sf < 16 → dm < 4 → df < 16 →
    encodeFormula op sm sf dm df = op * 2 ^ 12 + sm * 2 ^ 10 + sf * 2 ^ 6 + dm * 2 ^ 4 + df) ∧
  (∀ (i : Instr) (src dst : Operand), i.operands = some (src, dst) →
    (encode i).toNat =
      encodeFormula i.opcode.toNat src.mode.tag.toNat src.field.toNat dst.mode.tag.toNat dst.field.toNat)

/-- R62: the five slices of a word, by division, for every word that is decoded (every word but the placeholder, R94);
and the word of `MOV #5, R0`. -/
def Obligations.DecodeSplitsTheWordIntoItsFields : Prop :=
  (∀ w : InstrWord, w ≠ 0#16 →
    (decodeWord w).opcode.toNat = w.toNat / 2 ^ 12 ∧
    ∃ src dst, (decodeWord w).operands = some (src, dst) ∧
      src.mode.tag.toNat = w.toNat / 2 ^ 10 % 4 ∧ src.field.toNat = w.toNat / 2 ^ 6 % 16 ∧
      dst.mode.tag.toNat = w.toNat / 2 ^ 4 % 4 ∧ dst.field.toNat = w.toNat % 16) ∧
  decodeWord 0x1940#16 = .mov ⟨.immediate, 5#4⟩ ⟨.register, 0#4⟩

/-- R69: only the whole word 0 is the placeholder; opcode 0 in any other word is reserved; the placeholder is a no-op. -/
def Obligations.OnlyTheZeroWordIsThePlaceholder : Prop :=
  (∀ w : InstrWord, decodeWord w = .placeholder ↔ w = 0#16) ∧
  (∀ w : InstrWord, w.toNat < 2 ^ 12 → w ≠ 0#16 → decodeWord w = .reserved0 (srcOf w) (dstOf w)) ∧
  (∀ s : State, exec .placeholder s = .next { s with pc := s.pc + 1 })

/-- The words of 95_test_vectors.md decode to the instructions they stand for: one word or more for each family. -/
def Obligations.TestVectorWordsDecode : Prop :=
  decode 0x0000 = .ok .placeholder ∧
  decode 0x1940 = .ok (.mov ⟨.immediate, 5#4⟩ ⟨.register, 0#4⟩) ∧
  decode 0x1452 = .ok (.mov ⟨.indirect, 1#4⟩ ⟨.indirect, 2#4⟩) ∧
  decode 0x2040 = .ok (.cmp ⟨.register, 1#4⟩ ⟨.register, 0#4⟩) ∧
  decode 0x3483 = .ok (.add ⟨.indirect, 2#4⟩ ⟨.register, 3#4⟩) ∧
  decode 0x50C0 = .ok (.jlo ⟨.register, 3#4⟩ ⟨.register, 0#4⟩) ∧
  decode 0x7C00 = .ok (.jmp ⟨.invalid, 0#4⟩ ⟨.register, 0#4⟩) ∧
  decode 0xF0C5 = .ok (.nop ⟨.register, 3#4⟩ ⟨.register, 5#4⟩) ∧
  decode 0x4000 = .ok (.dec ⟨.register, 0#4⟩ ⟨.register, 0#4⟩) ∧
  decode 0x9020 = .ok (.reserved9 ⟨.register, 0#4⟩ ⟨.immediate, 0#4⟩)

/-- R95: exactly the values of `2^16` or more are no instruction word; the decoder rejects them by name. -/
def Obligations.ExactlyOverWideValuesAreRejected : Prop :=
  ∀ v : Nat, (v < 2 ^ 16 → ∃ i, decode v = .ok i) ∧ (2 ^ 16 ≤ v → decode v = .error (.overWide v))

/-! ## The step (40_step_and_operands.md, 60_exceptions.md) -/

/-- When the core is READY, the pc is in the program and the cell there decodes to a well-formed instruction, the step is
that instruction's, with nothing around it (R92, R93, R96, R101): each instruction moves the pc itself (R102). -/
def Obligations.StepRunsTheDecodedInstruction : Prop :=
  ∀ (s : State) (i : Instr), s.status = .ready → s.offset ≤ s.pc → s.pc < s.offset + s.plen →
    i.wf = true → decode (s.mem.read s.pc).toNat = .ok i → step s = exec i s

/-- R90, R130: every STEP of every state has a next state, and the host gets one of the three outcomes. -/
def Obligations.EveryStepHasANextState : Prop :=
  ∀ s : State, ∃ t, step s = .next t ∧ hostApply .step s = (t, .outcome t.outcome) ∧
    (t.outcome = .continuing ∨ t.outcome = .halted ∨ ∃ c, t.outcome = .fault c)

/-- R92: outside `[OFFSET, OFFSET + plen)` nothing is fetched and the step faults; so does a STEP before any LOAD. -/
def Obligations.FetchOutsideTheProgramFaults : Prop :=
  (∀ s : State, s.status = .ready → ¬(s.offset ≤ s.pc ∧ s.pc < s.offset + s.plen) →
    step s = .next { s with
      status := .faulted .pcOutOfProgram
      record := some ⟨.pcOutOfProgram, s.pc, none⟩ }) ∧
  (∀ capacity offset : Nat, ∃ t, step (State.powerOn capacity offset) = .next t ∧ t.outcome = .fault .pcOutOfProgram)

/-- R94: the placeholder advances the pc and changes nothing else; a fetched word 0 does just that and reports
Continuing. Completion of `placeholder`. -/
def Obligations.PlaceholderOnlyAdvances : Prop :=
  (∀ s : State, exec .placeholder s = .next { s with pc := s.pc + 1 }) ∧
  (∀ s : State, s.status = .ready → s.offset ≤ s.pc → s.pc < s.offset + s.plen → s.mem.read s.pc = 0#16 →
    hostApply .step s = ({ s with pc := s.pc + 1 }, .outcome .continuing))

/-- R91, R134: a HALTED or FAULTED core answers STEP with the same outcome and changes nothing, its fault record included;
no operation of the host but an accepted LOAD changes its status or its record. -/
def Obligations.OnlyLoadLeavesAStoppedCore : Prop :=
  (∀ s : State, s.status = .halted → hostApply .step s = (s, .outcome .halted)) ∧
  (∀ (s : State) (c : Fault), s.status = .faulted c → hostApply .step s = (s, .outcome (.fault c))) ∧
  (∀ (s : State) (op : HostOp), s.status ≠ .ready → (∀ ws, op ≠ .load ws) →
    (hostApply op s).1.status = s.status ∧ (hostApply op s).1.record = s.record)

/-- R146: however often a stopped core is stepped, all its state is kept. -/
def Obligations.StoppedCoreKeepsItsStateForever : Prop :=
  ∀ (s : State) (k : Nat), s.status ≠ .ready → Host.Core.run Sys2Proof.core k s = .next s

/-- R132, R133: a step that faults changes nothing but the status and the record; the record holds the cause, the pc and
the fetched word, or none for PcOutOfProgram; it holds until LOAD, through any other operations of the
host; and the snapshot shows it beside the status. -/
def Obligations.FaultingStepWritesOnlyTheLatchAndRecord : Prop :=
  (∀ (s t : State) (c : Fault), s.status = .ready → step s = .next t → t.status = .faulted c →
    t = { s with
      status := .faulted c
      record := some ⟨c, s.pc, if c = .pcOutOfProgram then none else some (s.mem.read s.pc)⟩ }) ∧
  (∀ (s : State) (c : Fault) (ops : List HostOp), s.status = .faulted c → (∀ op ∈ ops, ∀ ws, op ≠ .load ws) →
    (ops.foldl (fun u op => (hostApply op u).1) s).record = s.record) ∧
  (∀ s : State, s.snapshot.status = s.status ∧ s.snapshot.record = s.record)

/-- R135 with R130: the outcome of the step of a READY core. It reports the first fault in R135's order; without one, it
halts for the halt opcode in a nonzero word and continues for every other word. -/
def Obligations.StepReportsTheFirstFaultInPriorityOrder : Prop :=
  ∀ s : State, s.status = .ready → ∃ t, step s = .next t ∧
    t.outcome =
      match s.firstFault with
      | some c => .fault c
      | none => if (s.mem.read s.pc).toNat / 2 ^ 12 = 15 then .halted else .continuing

/-- R102: the pc after the step of a READY core: the target for JMP and for JLO with the flag set, unchanged by a fault,
and one more in every other case. -/
def Obligations.PcAdvancesByOneUnlessJumpOrFault : Prop :=
  ∀ s t : State, s.status = .ready → step s = .next t →
    t.pc =
      if s.firstFault.isSome then s.pc
      else if (s.mem.read s.pc).toNat / 2 ^ 12 = 7 ∨ ((s.mem.read s.pc).toNat / 2 ^ 12 = 5 ∧ s.flag = true) then
        s.offset + (s.mem.read s.pc).toNat / 2 ^ 6 % 16
      else s.pc + 1

/-- The frame of a step, from the fetched word (R22, R50, R99): a register other than the one the destination field names
and a cell other than the one at that register's value are unchanged; registers change only under MOV and ADD with a
REGISTER destination, memory only under MOV and ADD with an INDIRECT one. -/
def Obligations.StepWritesOnlyTheDestination : Prop :=
  ∀ s t : State, step s = .next t →
    (∀ f, f ≠ (dstOf (s.mem.read s.pc)).field → t.reg f = s.reg f) ∧
    (∀ a, a ≠ (s.reg (dstOf (s.mem.read s.pc)).field).toNat → t.mem.read a = s.mem.read a) ∧
    ((dstOf (s.mem.read s.pc)).mode ≠ .register → t.regs = s.regs) ∧
    ((dstOf (s.mem.read s.pc)).mode ≠ .indirect → t.mem = s.mem) ∧
    (opcodeOf (s.mem.read s.pc) ≠ 1#4 → opcodeOf (s.mem.read s.pc) ≠ 3#4 → t.regs = s.regs ∧ t.mem = s.mem)

/-- R98: for every opcode, a fault of the source and then of the destination comes before anything the opcode does. -/
def Obligations.ResolutionFaultsComeFirstForEveryOpcode : Prop :=
  ∀ (i : Instr) (src dst : Operand) (s : State) (c : Fault), i.operands = some (src, dst) →
    (s.operandFault src).or (s.operandFault dst) = some c →
    exec i s = .next { s with status := .faulted c, record := some ⟨c, s.pc, some (encode i)⟩ }

/-- R97: operand read, in all four modes. -/
def Obligations.ResolveReadFollowsTheModeTable : Prop :=
  ∀ (s : State) (f : OpField),
    resolveRead s ⟨.register, f⟩ = .ok (s.reg f) ∧
    resolveRead s ⟨.indirect, f⟩ =
      (if (s.reg f).toNat < s.capacity then .ok (s.mem.read (s.reg f).toNat) else .error .memoryOutOfRange) ∧
    (∃ v : Word, resolveRead s ⟨.immediate, f⟩ = .ok v ∧ v.toNat = f.toNat) ∧
    resolveRead s ⟨.invalid, f⟩ = .error .invalidAddressingMode

/-- R100: once the destination has resolved, an INDIRECT write cannot fault, and it goes to the cell that was read, at the
address `x[f]` of the start of the step. -/
def Obligations.IndirectWriteGoesToTheCellThatWasRead : Prop :=
  ∀ (s : State) (f : OpField) (old v : Word), s.mem.wf = true → resolveRead s ⟨.indirect, f⟩ = .ok old →
    old = s.mem.read (s.reg f).toNat ∧
    ∃ t, resolveWrite s ⟨.indirect, f⟩ v = .ok t ∧
      ∀ a, t.mem.read a = if a = (s.reg f).toNat then v else s.mem.read a

/-! ## Data operations (41_data_ops.md) -/

/-- MOV (R110) with a writable destination: the destination takes the source's value, the pc advances, and nothing else
changes. Completion of `mov`. -/
def Obligations.MovWritesTheSourceValue : Prop :=
  ∀ (s : State) (src dst : Operand), s.mem.wf = true → s.Resolves src dst → dst.mode ≠ .immediate →
    ∃ t, exec (.mov src dst) s = .next t ∧ Wrote s t dst (s.operandValue src) ∧
      t.pc = s.pc + 1 ∧ t.flag = s.flag ∧ SameControl s t

/-- ADD (R112, R113) with a writable destination: the destination takes the sum of both values modulo `2^16`; the flag
stays, the pc advances, and nothing else changes. Completion of `add`. -/
def Obligations.AddWritesTheWrappedSum : Prop :=
  ∀ (s : State) (src dst : Operand), s.mem.wf = true → s.Resolves src dst → dst.mode ≠ .immediate →
    ∃ t v, exec (.add src dst) s = .next t ∧ Wrote s t dst v ∧
      v.toNat = ((s.operandValue dst).toNat + (s.operandValue src).toNat) % 2 ^ 16 ∧
      t.pc = s.pc + 1 ∧ t.flag = s.flag ∧ SameControl s t

/-- CMP (R111, R113), an IMMEDIATE destination included: the flag becomes `dstValue < srcValue` as naturals, the pc
advances, and nothing else changes. Completion of `cmp`. -/
def Obligations.CmpSetsTheFlagToUnsignedLess : Prop :=
  ∀ (s : State) (src dst : Operand), s.Resolves src dst →
    exec (.cmp src dst) s = .next { s with
      flag := decide ((s.operandValue dst).toNat < (s.operandValue src).toNat)
      pc := s.pc + 1 }

/-- R99, R110, R112: MOV and ADD through an IMMEDIATE destination fault, once the source has resolved. -/
def Obligations.ImmediateDestinationFaults : Prop :=
  ∀ (s : State) (src dst : Operand), s.operandFault src = none → dst.mode = .immediate →
    exec (.mov src dst) s = .next { s with
      status := .faulted .invalidDestination
      record := some ⟨.invalidDestination, s.pc, some (encode (.mov src dst))⟩ } ∧
    exec (.add src dst) s = .next { s with
      status := .faulted .invalidDestination
      record := some ⟨.invalidDestination, s.pc, some (encode (.add src dst))⟩ }

/-- The corner cases of R110 and R112 that change nothing but the pc: MOV of a register to itself, ADD of the literal 0;
and ADD of a register to itself doubles it. -/
def Obligations.RegisterToItselfCornerCases : Prop :=
  ∀ (s : State) (f : OpField),
    exec (.mov ⟨.register, f⟩ ⟨.register, f⟩) s = .next { s with pc := s.pc + 1 } ∧
    exec (.add ⟨.immediate, 0#4⟩ ⟨.register, f⟩) s = .next { s with pc := s.pc + 1 } ∧
    ∃ t, exec (.add ⟨.register, f⟩ ⟨.register, f⟩) s = .next t ∧ (t.reg f).toNat = 2 * (s.reg f).toNat % 2 ^ 16

/-- R56, R162, for both instructions that store: a word that MOV or ADD stores into the next cell of the program is the
word the next step executes, and a store into the executing instruction's own cell leaves this step what it is: the pc
advances past it. -/
def Obligations.StoredWordIsTheNextOneFetched : Prop :=
  ∀ (s : State) (src dst : Operand) (v : Word), s.Inv → s.status = .ready → s.pc + 1 < s.offset + s.plen →
    (decode (s.mem.read s.pc).toNat = .ok (.mov src dst) ∧ v = s.operandValue src ∨
      decode (s.mem.read s.pc).toNat = .ok (.add src dst) ∧ v = s.operandValue dst + s.operandValue src) →
    s.Resolves src dst → dst.mode = .indirect →
    ((s.reg dst.field).toNat = s.pc + 1 →
      ∃ t, step s = .next t ∧ t.pc = s.pc + 1 ∧ t.mem.read t.pc = v ∧ step t = exec (decodeWord v) t) ∧
    ((s.reg dst.field).toNat = s.pc →
      ∃ t, step s = .next t ∧ t.pc = s.pc + 1 ∧ t.status = .ready ∧ t.mem.read s.pc = v ∧
        t.mem.read t.pc = s.mem.read t.pc)

/-! ## Control transfer (42_control_ops.md) -/

/-- JLO (R115): with the flag set the pc is OFFSET plus the raw source field; otherwise it advances by one. Nothing else
changes. Completion of `jlo`. -/
def Obligations.JloJumpsExactlyWhenTheFlagIsSet : Prop :=
  ∀ (s : State) (src dst : Operand), s.Resolves src dst →
    exec (.jlo src dst) s =
      .next { s with pc := if s.flag = true then s.offset + src.field.toNat else s.pc + 1 }

/-- JMP (R116): the pc is OFFSET plus the raw source field, whatever the source's mode, and nothing else changes.
Completion of `jmp`. -/
def Obligations.JmpGoesToTheRawSourceField : Prop :=
  ∀ (s : State) (src dst : Operand), s.Resolves src dst →
    exec (.jmp src dst) s = .next { s with pc := s.offset + src.field.toNat }

/-- R118, R26: a jump out of the loaded program, by JMP or by JLO with the flag set, is no fault when it executes; the next
step's fetch faults. -/
def Obligations.JumpBeyondTheProgramFaultsAtTheNextFetch : Prop :=
  ∀ (s : State) (src dst : Operand), s.status = .ready → s.offset ≤ s.pc → s.pc < s.offset + s.plen →
    (decode (s.mem.read s.pc).toNat = .ok (.jmp src dst) ∨
      decode (s.mem.read s.pc).toNat = .ok (.jlo src dst) ∧ s.flag = true) →
    s.Resolves src dst → s.plen ≤ src.field.toNat →
    ∃ t, step s = .next t ∧ t.outcome = .continuing ∧ t.pc = s.offset + src.field.toNat ∧
      step t = .next { t with
        status := .faulted .pcOutOfProgram
        record := some ⟨.pcOutOfProgram, s.offset + src.field.toNat, none⟩ }

/-! ## Halt, unimplemented and reserved opcodes (43_halt_unimplemented_unknown.md) -/

/-- NOP (R120), with any operand fields that resolve: the pc advances and the status is HALTED; registers, memory and flag
stay. Completion of `nop`. -/
def Obligations.NopAdvancesAndHalts : Prop :=
  ∀ (s : State) (src dst : Operand), s.Resolves src dst →
    exec (.nop src dst) s = .next { s with pc := s.pc + 1, status := .halted }

/-- A word of opcode 15 in the program whose operands resolve ends the run, whatever its fields (R120, D9), and so does the
canonical halt word 0xF000 in every case (test vector S5): Halted, the pc one further, and every later STEP keeps that
state. -/
def Obligations.HaltWordEndsTheRun : Prop :=
  ∀ (s : State) (w : InstrWord), s.status = .ready → s.offset ≤ s.pc → s.pc < s.offset + s.plen →
    s.mem.read s.pc = w → (w.toNat / 2 ^ 12 = 15 ∧ s.Resolves (srcOf w) (dstOf w) ∨ w = 0xF000#16) →
    RunEndsAt s 0 .halted ∧
    ∀ k, Host.Core.run Sys2Proof.core (k + 1) s = .next { s with pc := s.pc + 1, status := .halted }

/-- DEC and JNZ (R121, R122), once their operands resolve: the fault NotImplemented is taken; no decrement is done, no
branch is taken, the flag is not read. Completion of `dec` and `jnz`, whose effect the fault is. -/
def Obligations.DecAndJnzTakeTheNotImplementedFault : Prop :=
  ∀ (s : State) (src dst : Operand) (i : Instr), s.Resolves src dst → (i = .dec src dst ∨ i = .jnz src dst) →
    exec i s = .next { s with
      status := .faulted .notImplemented
      record := some ⟨.notImplemented, s.pc, some (encode i)⟩ }

/-- The reserved opcodes (R123), once their operands resolve: the fault UnknownInstruction is taken and the pc does not
advance. Completion of `reserved0` and `reserved8` to `reserved14`, whose effect the fault is. -/
def Obligations.ReservedOpcodesTakeTheUnknownInstructionFault : Prop :=
  ∀ (s : State) (src dst : Operand) (i : Instr), s.Resolves src dst →
    (i = .reserved0 src dst ∨ i = .reserved8 src dst ∨ i = .reserved9 src dst ∨ i = .reserved10 src dst ∨
      i = .reserved11 src dst ∨ i = .reserved12 src dst ∨ i = .reserved13 src dst ∨ i = .reserved14 src dst) →
    exec i s = .next { s with
      status := .faulted .unknownInstruction
      record := some ⟨.unknownInstruction, s.pc, some (encode i)⟩ }

/-- R160: a run has one end. It ends at the first STEP that returns Halted or a fault, so both the step and the outcome are
determined, and the state it ends in is the one every later step keeps (R91). -/
def Obligations.RunEndsAtMostOnceAndStaysEnded : Prop :=
  ∀ (s : State) (k k' : Nat) (o o' : StepOutcome), RunEndsAt s k o → RunEndsAt s k' o' →
    k = k' ∧ o = o' ∧ ∃ t, t.outcome = o ∧ ∀ j, k < j → Reaches s j t

/-! ## The flag, memory and the constants (10_state.md, 20_memory.md) -/

/-- R28: a step that changes the flag is a CMP's, and the effect of every instruction but JLO on the rest of the state is
the same whatever the flag was; CMP's new flag does not depend on it either. -/
def Obligations.OnlyCmpWritesAndOnlyJloReadsTheFlag : Prop :=
  (∀ s t : State, step s = .next t → t.flag ≠ s.flag → opcodeOf (s.mem.read s.pc) = 2#4) ∧
  (∀ (i : Instr) (s : State) (b : Bool), (∀ src dst, i ≠ .jlo src dst) →
    ∃ t t', exec i s = .next t ∧ exec i { s with flag := b } = .next t' ∧ { t' with flag := t.flag } = t) ∧
  (∀ (src dst : Operand) (s : State) (b : Bool), s.Resolves src dst →
    exec (.cmp src dst) { s with flag := b } = exec (.cmp src dst) s)

/-- R45, R46: a read or a write at CAPACITY or above faults; below it, a read gives the cell and a write sets that cell
and no other, and nothing else of the state. -/
def Obligations.MemoryAccessIsCheckedAgainstCapacity : Prop :=
  ∀ (s : State) (a : Nat) (v : Word), s.mem.wf = true →
    (s.capacity ≤ a → memRead s a = .error .memoryOutOfRange ∧ memWrite s a v = .error .memoryOutOfRange) ∧
    (a < s.capacity → memRead s a = .ok (s.mem.read a) ∧
      ∃ m, memWrite s a v = .ok { s with mem := m } ∧ ∀ b, m.read b = if b = a then v else s.mem.read b)

/-- Two memories in canonical form that read alike are the same data. The canonical form is the model's (log entries 1
and 2). -/
def Obligations.CanonicalMemoriesThatReadAlikeAreEqual : Prop :=
  ∀ m m' : Memory, m.wf = true → m'.wf = true → (∀ a, m.read a = m'.read a) → m = m'

/-- R32: construction fixes CAPACITY and OFFSET, at legal values, and no operation of the host, STEP and LOAD among them,
changes them. -/
def Obligations.CapacityAndOffsetAreFixedAtConstruction : Prop :=
  (∀ (capacity offset : Nat) (s : State), State.construct capacity offset = some s →
    s.capacity = capacity ∧ s.offset = offset ∧ 1 ≤ s.capacity ∧ s.offset ≤ s.capacity) ∧
  (∀ (op : HostOp) (s : State), (hostApply op s).1.capacity = s.capacity ∧ (hostApply op s).1.offset = s.offset)

/-- R33: no operation but LOAD writes `plen`, and an accepted LOAD sets it to the number of words loaded. -/
def Obligations.OnlyLoadWritesTheProgramLength : Prop :=
  (∀ (op : HostOp) (s : State), (∀ ws, op ≠ .load ws) → (hostApply op s).1.plen = s.plen) ∧
  (∀ (ws : List Nat) (s t : State), hostApply (.load ws) s = (t, .ok) → t.plen = ws.length)

/-! ## Construction, LOAD and the host (70_reset_and_hazards.md) -/

/-- R150, R151: construction with legal arguments gives the power-on state of R151's table, whose STEP faults with
PcOutOfProgram; with any others it is refused. The default of CAPACITY is 1024. -/
def Obligations.ConstructionGivesThePowerOnState : Prop :=
  ∀ capacity offset : Nat,
    (1 ≤ capacity ∧ offset ≤ capacity → ∃ s, State.construct capacity offset = some s ∧
      (∀ f, s.reg f = 0#16) ∧ (∀ a, s.mem.read a = 0#16) ∧ s.pc = offset ∧ s.flag = false ∧ s.plen = 0 ∧
      s.status = .ready ∧ s.record = none ∧ s.capacity = capacity ∧ s.offset = offset ∧
      ∃ t, step s = .next t ∧ t.outcome = .fault .pcOutOfProgram) ∧
    (¬(1 ≤ capacity ∧ offset ≤ capacity) → State.construct capacity offset = none) ∧
    Config.defaultCapacity = 1024

/-- R152, R155: an accepted LOAD, in any status: the program region holds the words and then zeros, pc is OFFSET, plen the
number of words, the status READY, the record none; the registers, the flag and the data region stay. -/
def Obligations.LoadWritesTheProgramAndKeepsTheRest : Prop :=
  ∀ (s : State) (words : List Nat), s.mem.wf = true → s.offset ≤ s.capacity →
    words.length ≤ s.capacity - s.offset → (∀ w ∈ words, w < 2 ^ 16) →
    ∃ t, s.loadProgram words = .ok t ∧
      (∀ i (h : i < words.length), (t.mem.read (s.offset + i)).toNat = words[i]) ∧
      (∀ a, s.offset + words.length ≤ a → a < s.capacity → t.mem.read a = 0#16) ∧
      (∀ a, a < s.offset → t.mem.read a = s.mem.read a) ∧
      t.pc = s.offset ∧ t.plen = words.length ∧ t.status = .ready ∧ t.record = none ∧
      t.regs = s.regs ∧ t.flag = s.flag ∧ t.capacity = s.capacity ∧ t.offset = s.offset

/-- R153: a LOAD of too many words reports CapacityExceeded, else one with a word of `2^16` or more reports
WordOutOfRange; CapacityExceeded comes first; and a refused LOAD changes nothing. -/
def Obligations.LoadRefusalsChangeNothing : Prop :=
  ∀ (s : State) (words : List Nat),
    (s.capacity - s.offset < words.length → hostApply (.load words) s = (s, .loadRefused .capacityExceeded)) ∧
    (words.length ≤ s.capacity - s.offset → (∃ w ∈ words, 2 ^ 16 ≤ w) →
      hostApply (.load words) s = (s, .loadRefused .wordOutOfRange))

/-- R154: a second LOAD of the same words leaves the same state, and a LOAD of them after any run restores the program
region, the pc and the program length. -/
def Obligations.LoadIsIdempotentAndResettable : Prop :=
  ∀ (s t : State) (words : List Nat), s.Inv → s.loadProgram words = .ok t →
    t.loadProgram words = .ok t ∧
    ∀ (k : Nat) (u : State), Reaches t k u →
      ∃ t', u.loadProgram words = .ok t' ∧ t'.pc = t.pc ∧ t'.plen = t.plen ∧
        ∀ a, s.offset ≤ a → a < s.capacity → t'.mem.read a = t.mem.read a

/-- R157, R158: HOSTWRITE in any status sets one cell of the data region and nothing else; an address outside it or a
value of `2^16` or more is refused and changes nothing; a snapshot changes nothing. -/
def Obligations.HostWritesOnlyTheDataRegion : Prop :=
  ∀ (s : State) (a v : Nat), s.mem.wf = true →
    (a < s.offset → v < 2 ^ 16 → ∃ m, hostApply (.hostWrite a v) s = ({ s with mem := m }, .ok) ∧
      (m.read a).toNat = v ∧ ∀ b, b ≠ a → m.read b = s.mem.read b) ∧
    (s.offset ≤ a ∨ 2 ^ 16 ≤ v → hostApply (.hostWrite a v) s = (s, .writeRefused)) ∧
    (hostApply .snapshot s).1 = s

/-- R37: the snapshot shows every register and every cell of the memory array. -/
def Obligations.SnapshotShowsEveryRegisterAndCell : Prop :=
  ∀ s : State, s.snapshot.x.length = 16 ∧ (∀ f : OpField, s.snapshot.x[f.toNat]? = some (s.reg f)) ∧
    s.snapshot.cells.length = s.capacity ∧
    ∀ a, a < s.capacity → s.snapshot.cells[a]? = some (s.mem.read a)

/-- The codes of the outcomes (R130) and of the fault causes (R131). -/
def Obligations.OutcomeAndFaultCodes : Prop :=
  StepOutcome.continuing.code = 0 ∧ StepOutcome.halted.code = 1 ∧ (∀ c, (StepOutcome.fault c).code = 2) ∧
  [Fault.unknownInstruction, .notImplemented, .invalidDestination, .invalidAddressingMode, .memoryOutOfRange,
    .pcOutOfProgram].map Fault.code = [1, 2, 3, 4, 5, 6]

/-! ## The invariant -/

/-- Every step keeps the invariant: the memory canonical and within CAPACITY, `plen` and `pc` in the ranges of R33 and R24,
the latch and the fault record in agreement (R34, R132). The canonical form is the model's (log entry 1). -/
def Obligations.StepKeepsTheInvariant : Prop :=
  ∀ s t : State, s.Inv → step s = .next t → t.Inv

/-- The machine right after reset has the invariant. The values of CAPACITY and OFFSET in it are the model's choice (log
entry 3). -/
def Obligations.ResetHasTheInvariant : Prop := State.reset.Inv

/-- Every constructed CORE has the invariant, and HOSTWRITE and LOAD keep it. -/
def Obligations.ConstructionAndHostWritesKeepTheInvariant : Prop :=
  (∀ (capacity offset : Nat) (s : State), State.construct capacity offset = some s → s.Inv) ∧
  (∀ (s : State) (a v : Nat), s.Inv → (hostApply (.hostWrite a v) s).1.Inv) ∧
  (∀ (s : State) (words : List Nat), s.Inv → (hostApply (.load words) s).1.Inv)

/-- The model's own: an instruction placed by `withFetchWord` is the one the next step executes, from every state with the
invariant and a program region (log entry 10). -/
def Obligations.PlacedInstructionIsTheNextOneExecuted : Prop :=
  ∀ (s : State) (w : Nat), s.Inv → s.offset < s.capacity → w < 2 ^ 16 →
    step (s.withFetchWord 16 w) = exec (decodeWord (BitVec.ofNat 16 w)) (s.withFetchWord 16 w)

/-! ## The toolchain's assembler (30_encoding.md) -/

/-- R78: assembly gives one word for each line that is not blank. -/
def Obligations.AssemblyGivesOneWordPerNonBlankLine : Prop :=
  ∀ (lines : List Assembler.Line) (ws : List Nat), Assembler.assembleLines lines = .ok ws →
    ws.length = (lines.filter fun l => decide (l ≠ .blank)).length

/-- R77: a label's position, as pass 2 looks it up, is the number of words that the lines before its declaration emit, so
it is the index, in the output, of the label's own placeholder word; and the table holds no position but that of a
placeholder word. -/
def Obligations.LabelPositionIsItsPlaceholderIndex : Prop :=
  ∀ (lines : List Assembler.Line) (ws : List Nat), Assembler.assembleLines lines = .ok ws →
    (∀ (pre post : List Assembler.Line) (name : Assembler.Text), lines = pre ++ .label name :: post →
      Assembler.labelPosition name (Assembler.labelTable 0 0 lines) =
          some (pre.filter fun l => decide (l ≠ .blank)).length ∧
        ws[(pre.filter fun l => decide (l ≠ .blank)).length]? = some 0) ∧
    (∀ (name : Assembler.Text) (p : Nat), (name, p) ∈ Assembler.labelTable 0 0 lines → ws[p]? = some 0)

/-- R84: the examples of field overflow, and what the decoder and LOAD make of the words. -/
def Obligations.OversizedLabelsCorruptTheWord : Prop :=
  encodeFormula 7 0 20 0 0 = 0x7500 ∧ decode 0x7500 = .ok (.jmp ⟨.indirect, 4#4⟩ ⟨.register, 0#4⟩) ∧
  encodeFormula 7 0 64 0 0 = 0x7000 ∧ encodeFormula 5 0 1024 0 0 = 0x15000 ∧
  ∀ s : State, s.offset < s.capacity → s.loadProgram [0x15000] = .error .wordOutOfRange
end

