-- ==== Sys2Proof/Laws/Assembler.lean ====
section
/-! SUPPORT. What the assembler's operand operations can answer. -/

namespace Sys2Proof.Assembler

/-- A register operand that is accepted has its number and the mode tag it was given. -/
theorem registerOperand_cases {tag n : Nat} {r : Nat × Nat} (h : registerOperand tag n = .ok r) :
    n < 16 ∧ r = (tag, n) := by
  unfold registerOperand at h
  split at h
  · cases h
    exact ⟨‹_›, rfl⟩
  · cases h

/-- A label operand that is accepted has tag 0 and the label's position. -/
theorem labelOperand_cases {labels : List (Text × Nat)} {t : Text} {r : Nat × Nat} (h : labelOperand labels t = .ok r) :
    ∃ p, labelPosition t labels = some p ∧ r = (0, p) := by
  unfold labelOperand at h
  split at h
  · cases h
    exact ⟨_, ‹_›, rfl⟩
  · cases h

/-- An INDIRECT token that is accepted names a register by a decimal number; one without a number is a label. -/
theorem indirectOperand_cases {labels : List (Text × Nat)} {t digits : Text} {r : Nat × Nat}
    (h : indirectOperand labels t digits = .ok r) :
    (∃ n, decimal digits = some n ∧ n < 16 ∧ r = (1, n)) ∨
      decimal digits = none ∧ ∃ p, labelPosition t labels = some p ∧ r = (0, p) := by
  unfold indirectOperand at h
  split at h
  · obtain ⟨hn, hr⟩ := registerOperand_cases h
    exact .inl ⟨_, ‹_›, hn, hr⟩
  · exact .inr ⟨‹_›, labelOperand_cases h⟩

end Sys2Proof.Assembler
end

