-- ==== Sys2Proof/Laws/Encoding.lean ====
section
/-! SUPPORT. The values of packed words and of the slices of a word, as naturals. -/

namespace Sys2Proof

/-- The bits of a concatenation, as a natural (00_scope.md R9). -/
theorem toNat_append_eq {m n : Nat} (x : BitVec m) (y : BitVec n) :
    (x ++ y).toNat = x.toNat * 2 ^ n + y.toNat := by
  rw [BitVec.toNat_append, ← Nat.shiftLeft_add_eq_or_of_lt y.isLt, Nat.shiftLeft_eq]

theorem Operand.bits_toNat (o : Operand) : o.bits.toNat = o.mode.tag.toNat * 2 ^ 4 + o.field.toNat :=
  toNat_append_eq _ _

theorem packWord_toNat (op : Opcode) (src dst : Operand) :
    (packWord op src dst).toNat = op.toNat * 2 ^ 12 + src.bits.toNat * 2 ^ 6 + dst.bits.toNat := by
  have h : (packWord op src dst).toNat = ((op ++ src.bits) ++ dst.bits).toNat := rfl
  rw [h, toNat_append_eq, toNat_append_eq]
  ring

theorem opcodeOf_toNat (w : InstrWord) : (opcodeOf w).toNat = w.toNat / 2 ^ 12 := by
  have hw : w.toNat < 2 ^ 16 := w.isLt
  unfold opcodeOf
  rw [BitVec.extractLsb'_toNat, Nat.shiftRight_eq_div_pow]
  omega

theorem srcOf_field_toNat (w : InstrWord) : (srcOf w).field.toNat = w.toNat / 2 ^ 6 % 16 := by
  unfold srcOf
  rw [BitVec.extractLsb'_toNat, Nat.shiftRight_eq_div_pow]

theorem dstOf_field_toNat (w : InstrWord) : (dstOf w).field.toNat = w.toNat % 16 := by
  unfold dstOf
  rw [BitVec.extractLsb'_toNat, Nat.shiftRight_eq_div_pow]
  omega

/-- The tag of the mode a tag stands for is that tag. -/
@[simp] theorem AddrMode.tag_ofTag (t : ModeTag) : (AddrMode.ofTag t).tag = t := by
  revert t; decide

/-- The mode of the tag of a mode is that mode. -/
@[simp] theorem AddrMode.ofTag_tag (m : AddrMode) : AddrMode.ofTag m.tag = m := by
  cases m <;> rfl

end Sys2Proof
end

