-- ==== Sys2Proof/Laws/Memory.lean ====
section
/-! SUPPORT. The laws of the memory: reading after each operation, and that each keeps the canonical form and the
capacity. -/

namespace Sys2Proof.Machine

/-- The memory right after reset is in canonical form: nothing is listed. -/
theorem State.reset_mem_wf : State.reset.mem.wf = true := rfl

/-! Reading. -/

@[simp] theorem Memory.read_nil (a : Nat) : Memory.read [] a = 0#16 := rfl

theorem Memory.read_cons (b : Nat) (v : Word) (m : Memory) (a : Nat) :
    Memory.read ((b, v) :: m) a = if a = b then v else Memory.read m a := rfl

theorem Memory.wf_cons {a : Nat} {v : Word} {m : Memory} :
    Memory.wf ((a, v) :: m) = true ↔ v ≠ 0#16 ∧ Memory.above a m = true ∧ Memory.wf m = true := by
  simp only [Memory.wf, Bool.and_eq_true, decide_eq_true_eq, and_assoc]
  exact Iff.rfl

theorem Memory.above_cons {a b : Nat} {v : Word} {m : Memory} :
    Memory.above a ((b, v) :: m) = true ↔ a < b := by
  simp [Memory.above]

theorem Memory.above_mono {a b : Nat} {m : Memory} (hab : a ≤ b) (h : Memory.above b m = true) :
    Memory.above a m = true := by
  cases m with
  | nil => rfl
  | cons c m => exact Memory.above_cons.2 (by have := Memory.above_cons.1 h; omega)

/-- A canonical memory reads as unlisted at and below an address that all its addresses are above. -/
theorem Memory.read_of_above {m : Memory} : ∀ {a b : Nat}, Memory.wf m = true → Memory.above a m = true → b ≤ a →
    m.read b = 0#16 := by
  induction m with
  | nil => intros; rfl
  | cons c m ih =>
    obtain ⟨x, v⟩ := c
    intro a b hw ha hb
    have hx := Memory.above_cons.1 ha
    obtain ⟨-, hx', hm⟩ := Memory.wf_cons.1 hw
    rw [Memory.read_cons, if_neg (by omega)]
    exact ih hm hx' (by omega)

/-- A write leaves every other cell alone. -/
theorem Memory.read_write_of_ne {m : Memory} {a b : Nat} (v : Word) (h : b ≠ a) :
    (m.write a v).read b = m.read b := by
  induction m with
  | nil => by_cases hv : v = 0#16 <;> simp [Memory.write, Memory.unlisted, hv, Memory.read_cons, h]
  | cons c m ih =>
    obtain ⟨x, u⟩ := c
    simp only [Memory.write]
    split
    · split
      · rfl
      · rw [Memory.read_cons, if_neg h]
    · split
      · rename_i hax
        subst hax
        split <;> simp [Memory.read_cons, h]
      · simp only [Memory.read_cons, ih]

/-- Reading the written cell of a canonical memory gives the written value. -/
theorem Memory.read_write_self {m : Memory} (hw : m.wf = true) (a : Nat) (v : Word) : (m.write a v).read a = v := by
  induction m with
  | nil => by_cases hv : v = 0#16 <;> simp [Memory.write, Memory.unlisted, hv, Memory.read_cons]
  | cons c m ih =>
    obtain ⟨x, u⟩ := c
    obtain ⟨-, hx, hm⟩ := Memory.wf_cons.1 hw
    simp only [Memory.write]
    split
    · rename_i hax
      split
      · rename_i hv
        rw [Memory.read_cons, if_neg (by omega), hv]
        exact Memory.read_of_above hm hx (by omega)
      · simp [Memory.read_cons]
    · split
      · rename_i hax
        subst hax
        split
        · rename_i hv
          rw [hv]
          exact Memory.read_of_above hm hx le_rfl
        · simp [Memory.read_cons]
      · rename_i hax
        rw [Memory.read_cons, if_neg hax]
        exact ih hm

/-- Read after write, in a canonical memory. -/
theorem Memory.read_write {m : Memory} (hw : m.wf = true) (a b : Nat) (v : Word) :
    (m.write a v).read b = if b = a then v else m.read b := by
  by_cases h : b = a
  · subst h
    simp [Memory.read_write_self hw]
  · simp [h, Memory.read_write_of_ne v h]

/-! The canonical form. -/

theorem Memory.above_write {m : Memory} {x a : Nat} {v : Word} (h : Memory.above x m = true) (hw : m.wf = true)
    (hxa : x < a) : Memory.above x (m.write a v) = true := by
  cases m with
  | nil => by_cases hv : v = 0#16 <;> simp [Memory.write, Memory.unlisted, hv, Memory.above, hxa]
  | cons c m =>
    obtain ⟨y, u⟩ := c
    have hxy := Memory.above_cons.1 h
    obtain ⟨-, hy, -⟩ := Memory.wf_cons.1 hw
    simp only [Memory.write]
    split
    · split <;> simp [Memory.above, hxa, hxy]
    · split
      · split
        · exact Memory.above_mono (by omega) hy
        · simp [Memory.above, hxa]
      · simp [Memory.above, hxy]

/-- A write keeps the canonical form. -/
theorem Memory.wf_write {m : Memory} (hw : m.wf = true) (a : Nat) (v : Word) : (m.write a v).wf = true := by
  induction m with
  | nil =>
    by_cases hv : v = 0#16
    · simp [Memory.write, Memory.unlisted, hv, Memory.wf]
    · simp [Memory.write, Memory.unlisted, hv, Memory.wf, Memory.above]
  | cons c m ih =>
    obtain ⟨x, u⟩ := c
    obtain ⟨hu, hx, hm⟩ := Memory.wf_cons.1 hw
    simp only [Memory.write]
    split
    · rename_i hax
      split
      · exact hw
      · rename_i hv
        exact Memory.wf_cons.2 ⟨hv, Memory.above_cons.2 hax, hw⟩
    · split
      · rename_i hax
        split
        · exact hm
        · rename_i hv
          exact Memory.wf_cons.2 ⟨hv, hax ▸ hx, hm⟩
      · exact Memory.wf_cons.2 ⟨hu, Memory.above_write hx hm (by omega), ih hm⟩

/-- A write below the capacity keeps the list within it. -/
theorem Memory.within_write {m : Memory} {n : Nat} (h : m.within n = true) {a : Nat} (ha : a < n) (v : Word) :
    (m.write a v).within n = true := by
  induction m with
  | nil => by_cases hv : v = 0#16 <;> simp [Memory.write, Memory.unlisted, hv, Memory.within, ha]
  | cons c m ih =>
    obtain ⟨x, u⟩ := c
    have hx : x < n := by simp [Memory.within] at h; exact h.1
    have hm : Memory.within n m = true := by simp [Memory.within] at h ⊢; exact h.2
    have hcons : ∀ {b : Nat} {w : Word} {l : Memory}, b < n → Memory.within n l = true →
        Memory.within n ((b, w) :: l) = true := by
      intro b w l hb hl
      simp [Memory.within] at hl ⊢
      exact ⟨hb, hl⟩
    simp only [Memory.write]
    split
    · split
      · exact h
      · exact hcons ha h
    · split
      · split
        · exact hm
        · exact hcons ha hm
      · exact hcons hx (ih hm)

/-! The two loops of LOAD. -/

theorem Memory.above_filter {m : Memory} {x : Nat} (p : Nat × Word → Bool) (hw : m.wf = true)
    (h : Memory.above x m = true) : Memory.above x (m.filter p) = true := by
  induction m with
  | nil => rfl
  | cons c m ih =>
    obtain ⟨y, u⟩ := c
    obtain ⟨-, hy, hm⟩ := Memory.wf_cons.1 hw
    have hxy := Memory.above_cons.1 h
    rw [List.filter_cons]
    split
    · exact Memory.above_cons.2 hxy
    · exact ih hm (Memory.above_mono (by omega) hy)

theorem Memory.wf_filter {m : Memory} (p : Nat × Word → Bool) (hw : m.wf = true) :
    Memory.wf (m.filter p) = true := by
  induction m with
  | nil => rfl
  | cons c m ih =>
    obtain ⟨y, u⟩ := c
    obtain ⟨hu, hy, hm⟩ := Memory.wf_cons.1 hw
    rw [List.filter_cons]
    split
    · exact Memory.wf_cons.2 ⟨hu, Memory.above_filter p hm hy, ih hm⟩
    · exact ih hm

/-- Zero-filling keeps the canonical form. -/
theorem Memory.wf_zeroFill {m : Memory} (hw : m.wf = true) (lo hi : Nat) : (m.zeroFill lo hi).wf = true :=
  Memory.wf_filter _ hw

/-- Zero-filling keeps the list within the capacity. -/
theorem Memory.within_zeroFill {m : Memory} {n : Nat} (h : m.within n = true) (lo hi : Nat) :
    (m.zeroFill lo hi).within n = true := by
  simp only [Memory.within, Memory.zeroFill, List.all_eq_true, List.mem_filter] at h ⊢
  exact fun c hc => h c hc.1

/-- Reading after zero-filling `[lo, hi)`: 0 inside, the old cell outside. -/
theorem Memory.read_zeroFill (m : Memory) (lo hi a : Nat) :
    (m.zeroFill lo hi).read a = if lo ≤ a ∧ a < hi then 0#16 else m.read a := by
  induction m with
  | nil => simp [Memory.zeroFill]
  | cons c m ih =>
    obtain ⟨y, u⟩ := c
    unfold Memory.zeroFill at ih ⊢
    rw [List.filter_cons]
    by_cases hy : y < lo ∨ hi ≤ y
    · rw [if_pos (by simpa using hy), Memory.read_cons, Memory.read_cons, ih]
      by_cases hay : a = y
      · subst hay
        rw [if_pos rfl, if_pos rfl, if_neg (by omega)]
      · rw [if_neg hay, if_neg hay]
    · rw [if_neg (by simpa using hy), ih, Memory.read_cons]
      by_cases hay : a = y
      · subst hay
        rw [if_pos (by omega), if_pos (by omega)]
      · rw [if_neg hay]

/-- Storing words keeps the canonical form. -/
theorem Memory.wf_storeWords (ws : List Nat) : ∀ {m : Memory} (a : Nat), m.wf = true → (m.storeWords a ws).wf = true := by
  induction ws with
  | nil => intro m a h; exact h
  | cons w ws ih => intro m a h; exact ih (a + 1) (Memory.wf_write h a _)

/-- Storing words that end below the capacity keeps the list within it. -/
theorem Memory.within_storeWords {n : Nat} (ws : List Nat) : ∀ {m : Memory} (a : Nat), m.within n = true →
    a + ws.length ≤ n → (m.storeWords a ws).within n = true := by
  induction ws with
  | nil => intro m a h _; exact h
  | cons w ws ih =>
    intro m a h hl
    simp only [List.length_cons] at hl
    exact ih (a + 1) (Memory.within_write h (by omega) _) (by omega)

/-- Reading after storing words from `a` on: the stored word in their cells, the old cell elsewhere. -/
theorem Memory.read_storeWords (ws : List Nat) : ∀ {m : Memory} (a b : Nat), m.wf = true →
    (m.storeWords a ws).read b =
      if h : a ≤ b ∧ b < a + ws.length then BitVec.ofNat 16 (ws[b - a]'(by omega)) else m.read b := by
  induction ws with
  | nil =>
    intro m a b _
    rw [dif_neg (by simp)]
    rfl
  | cons w ws ih =>
    intro m a b hw
    have hstep : Memory.storeWords m a (w :: ws) = Memory.storeWords (m.write a (BitVec.ofNat 16 w)) (a + 1) ws := rfl
    rw [hstep, ih (a + 1) b (Memory.wf_write hw a _), Memory.read_write hw]
    by_cases hab : b = a
    · subst hab
      rw [dif_neg (by omega), if_pos rfl, dif_pos (by simp)]
      simp
    · rw [if_neg hab]
      by_cases h : a + 1 ≤ b ∧ b < a + 1 + ws.length
      · rw [dif_pos h, dif_pos (by simp only [List.length_cons]; omega)]
        have e : b - a = (b - (a + 1)) + 1 := by omega
        simp [e]
      · rw [dif_neg h, dif_neg (by simp only [List.length_cons]; omega)]

end Sys2Proof.Machine
end

