-- ==== Sys2Proof/Laws/State.lean ====
section
/-! SUPPORT. What each update of the state does to each field, and reading a register after an update. -/

namespace Sys2Proof.Machine

/-! `State.setReg`. -/

@[simp] theorem State.setReg_regs (s : State) (f : OpField) (v : Word) :
    (s.setReg f v).regs = s.regs.set f.toNat v f.isLt := rfl
@[simp] theorem State.setReg_mem (s : State) (f : OpField) (v : Word) : (s.setReg f v).mem = s.mem := rfl
@[simp] theorem State.setReg_pc (s : State) (f : OpField) (v : Word) : (s.setReg f v).pc = s.pc := rfl
@[simp] theorem State.setReg_flag (s : State) (f : OpField) (v : Word) : (s.setReg f v).flag = s.flag := rfl
@[simp] theorem State.setReg_plen (s : State) (f : OpField) (v : Word) : (s.setReg f v).plen = s.plen := rfl
@[simp] theorem State.setReg_status (s : State) (f : OpField) (v : Word) : (s.setReg f v).status = s.status := rfl
@[simp] theorem State.setReg_record (s : State) (f : OpField) (v : Word) : (s.setReg f v).record = s.record := rfl
@[simp] theorem State.setReg_capacity (s : State) (f : OpField) (v : Word) : (s.setReg f v).capacity = s.capacity := rfl
@[simp] theorem State.setReg_offset (s : State) (f : OpField) (v : Word) : (s.setReg f v).offset = s.offset := rfl

/-! `State.advance`. -/

@[simp] theorem State.advance_regs (s : State) : (s.advance).regs = s.regs := rfl
@[simp] theorem State.advance_mem (s : State) : (s.advance).mem = s.mem := rfl
@[simp] theorem State.advance_pc (s : State) : (s.advance).pc = s.pc + 1 := rfl
@[simp] theorem State.advance_flag (s : State) : (s.advance).flag = s.flag := rfl
@[simp] theorem State.advance_plen (s : State) : (s.advance).plen = s.plen := rfl
@[simp] theorem State.advance_status (s : State) : (s.advance).status = s.status := rfl
@[simp] theorem State.advance_record (s : State) : (s.advance).record = s.record := rfl
@[simp] theorem State.advance_capacity (s : State) : (s.advance).capacity = s.capacity := rfl
@[simp] theorem State.advance_offset (s : State) : (s.advance).offset = s.offset := rfl

/-! `State.jumpTo`. -/

@[simp] theorem State.jumpTo_regs (s : State) (f : OpField) : (s.jumpTo f).regs = s.regs := rfl
@[simp] theorem State.jumpTo_mem (s : State) (f : OpField) : (s.jumpTo f).mem = s.mem := rfl
@[simp] theorem State.jumpTo_pc (s : State) (f : OpField) : (s.jumpTo f).pc = s.offset + f.toNat := rfl
@[simp] theorem State.jumpTo_flag (s : State) (f : OpField) : (s.jumpTo f).flag = s.flag := rfl
@[simp] theorem State.jumpTo_plen (s : State) (f : OpField) : (s.jumpTo f).plen = s.plen := rfl
@[simp] theorem State.jumpTo_status (s : State) (f : OpField) : (s.jumpTo f).status = s.status := rfl
@[simp] theorem State.jumpTo_record (s : State) (f : OpField) : (s.jumpTo f).record = s.record := rfl
@[simp] theorem State.jumpTo_capacity (s : State) (f : OpField) : (s.jumpTo f).capacity = s.capacity := rfl
@[simp] theorem State.jumpTo_offset (s : State) (f : OpField) : (s.jumpTo f).offset = s.offset := rfl

/-! `State.setFlag`. -/

@[simp] theorem State.setFlag_regs (s : State) (b : Bool) : (s.setFlag b).regs = s.regs := rfl
@[simp] theorem State.setFlag_mem (s : State) (b : Bool) : (s.setFlag b).mem = s.mem := rfl
@[simp] theorem State.setFlag_pc (s : State) (b : Bool) : (s.setFlag b).pc = s.pc := rfl
@[simp] theorem State.setFlag_flag (s : State) (b : Bool) : (s.setFlag b).flag = b := rfl
@[simp] theorem State.setFlag_plen (s : State) (b : Bool) : (s.setFlag b).plen = s.plen := rfl
@[simp] theorem State.setFlag_status (s : State) (b : Bool) : (s.setFlag b).status = s.status := rfl
@[simp] theorem State.setFlag_record (s : State) (b : Bool) : (s.setFlag b).record = s.record := rfl
@[simp] theorem State.setFlag_capacity (s : State) (b : Bool) : (s.setFlag b).capacity = s.capacity := rfl
@[simp] theorem State.setFlag_offset (s : State) (b : Bool) : (s.setFlag b).offset = s.offset := rfl

/-! `State.takeFault`. -/

@[simp] theorem State.takeFault_regs (s : State) (c : Fault) (w : Option Word) :
    (s.takeFault c w).regs = s.regs := rfl
@[simp] theorem State.takeFault_mem (s : State) (c : Fault) (w : Option Word) : (s.takeFault c w).mem = s.mem := rfl
@[simp] theorem State.takeFault_pc (s : State) (c : Fault) (w : Option Word) : (s.takeFault c w).pc = s.pc := rfl
@[simp] theorem State.takeFault_flag (s : State) (c : Fault) (w : Option Word) :
    (s.takeFault c w).flag = s.flag := rfl
@[simp] theorem State.takeFault_plen (s : State) (c : Fault) (w : Option Word) :
    (s.takeFault c w).plen = s.plen := rfl
@[simp] theorem State.takeFault_status (s : State) (c : Fault) (w : Option Word) :
    (s.takeFault c w).status = .faulted c := rfl
@[simp] theorem State.takeFault_record (s : State) (c : Fault) (w : Option Word) :
    (s.takeFault c w).record = some ⟨c, s.pc, w⟩ := rfl
@[simp] theorem State.takeFault_capacity (s : State) (c : Fault) (w : Option Word) :
    (s.takeFault c w).capacity = s.capacity := rfl
@[simp] theorem State.takeFault_offset (s : State) (c : Fault) (w : Option Word) :
    (s.takeFault c w).offset = s.offset := rfl

/-! `State.halt`. -/

@[simp] theorem State.halt_regs (s : State) : (s.halt).regs = s.regs := rfl
@[simp] theorem State.halt_mem (s : State) : (s.halt).mem = s.mem := rfl
@[simp] theorem State.halt_pc (s : State) : (s.halt).pc = s.pc := rfl
@[simp] theorem State.halt_flag (s : State) : (s.halt).flag = s.flag := rfl
@[simp] theorem State.halt_plen (s : State) : (s.halt).plen = s.plen := rfl
@[simp] theorem State.halt_status (s : State) : (s.halt).status = .halted := rfl
@[simp] theorem State.halt_record (s : State) : (s.halt).record = s.record := rfl
@[simp] theorem State.halt_capacity (s : State) : (s.halt).capacity = s.capacity := rfl
@[simp] theorem State.halt_offset (s : State) : (s.halt).offset = s.offset := rfl

/-! `State.startRun`. -/

@[simp] theorem State.startRun_regs (s : State) (ws : List Nat) : (s.startRun ws).regs = s.regs := rfl
@[simp] theorem State.startRun_mem (s : State) (ws : List Nat) :
    (s.startRun ws).mem = (s.mem.zeroFill s.offset s.capacity).storeWords s.offset ws := rfl
@[simp] theorem State.startRun_pc (s : State) (ws : List Nat) : (s.startRun ws).pc = s.offset := rfl
@[simp] theorem State.startRun_flag (s : State) (ws : List Nat) : (s.startRun ws).flag = s.flag := rfl
@[simp] theorem State.startRun_plen (s : State) (ws : List Nat) : (s.startRun ws).plen = ws.length := rfl
@[simp] theorem State.startRun_status (s : State) (ws : List Nat) : (s.startRun ws).status = .ready := rfl
@[simp] theorem State.startRun_record (s : State) (ws : List Nat) : (s.startRun ws).record = none := rfl
@[simp] theorem State.startRun_capacity (s : State) (ws : List Nat) : (s.startRun ws).capacity = s.capacity := rfl
@[simp] theorem State.startRun_offset (s : State) (ws : List Nat) : (s.startRun ws).offset = s.offset := rfl

/-! Registers. -/

/-- Reading a register after a write: the written value at its index, the old value elsewhere. -/
theorem State.reg_setReg (s : State) (f g : OpField) (v : Word) :
    (s.setReg f v).reg g = if g = f then v else s.reg g := by
  unfold State.reg State.setReg
  rw [Vector.getElem_set]
  by_cases h : g = f
  · simp [h]
  · have : f.toNat ≠ g.toNat := fun e => h (BitVec.eq_of_toNat_eq e.symm)
    simp [h, this]

/-- Reading a register looks at the register file alone. -/
theorem State.reg_congr {s t : State} (h : t.regs = s.regs) (f : OpField) : t.reg f = s.reg f := by
  simp only [State.reg, h]

@[simp] theorem State.advance_reg (s : State) (g : OpField) : (s.advance).reg g = s.reg g := rfl
@[simp] theorem State.jumpTo_reg (s : State) (f : OpField) (g : OpField) : (s.jumpTo f).reg g = s.reg g := rfl
@[simp] theorem State.setFlag_reg (s : State) (b : Bool) (g : OpField) : (s.setFlag b).reg g = s.reg g := rfl
@[simp] theorem State.takeFault_reg (s : State) (c : Fault) (w : Option Word) (g : OpField) : (s.takeFault c w).reg g = s.reg g := rfl
@[simp] theorem State.halt_reg (s : State) (g : OpField) : (s.halt).reg g = s.reg g := rfl
@[simp] theorem State.startRun_reg (s : State) (ws : List Nat) (g : OpField) : (s.startRun ws).reg g = s.reg g := rfl

end Sys2Proof.Machine
end

