-- ==== Sys2Proof/Laws/Operands.lean ====
section
/-! SUPPORT. What each shared operation of an instruction can do, said once: the memory primitives, the operand resolver,
the operand write, the end of a step. -/

namespace Sys2Proof.Machine

/-! The memory primitives (20_memory.md R45, R46). -/

theorem memRead_of_lt {s : State} {a : Nat} (h : a < s.capacity) : memRead s a = .ok (s.mem.read a) :=
  if_neg (by omega)

theorem memRead_of_le {s : State} {a : Nat} (h : s.capacity ≤ a) : memRead s a = .error .memoryOutOfRange :=
  if_pos h

theorem memWrite_of_lt {s : State} {a : Nat} (v : Word) (h : a < s.capacity) :
    memWrite s a v = .ok { s with mem := s.mem.write a v } :=
  if_neg (by omega)

theorem memWrite_of_le {s : State} {a : Nat} (v : Word) (h : s.capacity ≤ a) :
    memWrite s a v = .error .memoryOutOfRange :=
  if_pos h

/-- A write that answers is below CAPACITY and sets that cell alone. -/
theorem memWrite_cases {s t : State} {a : Nat} {v : Word} (h : memWrite s a v = .ok t) :
    a < s.capacity ∧ t = { s with mem := s.mem.write a v } := by
  by_cases ha : s.capacity ≤ a
  · rw [memWrite_of_le v ha] at h
    cases h
  · rw [memWrite_of_lt v (by omega)] at h
    cases h
    exact ⟨by omega, rfl⟩

/-! The resolver (40_step_and_operands.md R97, R98). -/

/-- Reading an operand gives its fault, or its value. -/
theorem resolveRead_eq (s : State) (o : Operand) :
    resolveRead s o =
      match s.operandFault o with
      | some c => .error c
      | none => .ok (s.operandValue o) := by
  obtain ⟨m, f⟩ := o
  cases m with
  | register => rfl
  | immediate =>
    have : immediateValue f = BitVec.ofNat 16 f.toNat := by
      apply BitVec.eq_of_toNat_eq
      simp [immediateValue]
    simp [resolveRead, State.operandFault, State.operandValue, this]
  | invalid => rfl
  | indirect =>
    by_cases h : s.capacity ≤ (s.reg f).toNat
    · simp [resolveRead, State.operandFault, memRead_of_le h, h]
    · simp [resolveRead, State.operandFault, State.operandValue, memRead_of_lt (not_le.1 h), h]

theorem resolveRead_ok {s : State} {o : Operand} (h : s.operandFault o = none) :
    resolveRead s o = .ok (s.operandValue o) := by
  rw [resolveRead_eq, h]

theorem resolveRead_error {s : State} {o : Operand} {c : Fault} (h : s.operandFault o = some c) :
    resolveRead s o = .error c := by
  rw [resolveRead_eq, h]

/-- Both operands that resolve give both values. -/
theorem resolveOperands_ok {s : State} {src dst : Operand} (h : s.Resolves src dst) :
    resolveOperands s src dst = .ok (s.operandValue src, s.operandValue dst) := by
  unfold resolveOperands
  rw [resolveRead_ok h.1, resolveRead_ok h.2]
  rfl

/-- The source's fault, or else the destination's. -/
theorem resolveOperands_error {s : State} {src dst : Operand} {c : Fault}
    (h : (s.operandFault src).or (s.operandFault dst) = some c) : resolveOperands s src dst = .error c := by
  unfold resolveOperands
  cases hs : s.operandFault src with
  | some d =>
    rw [hs] at h
    cases h
    rw [resolveRead_error hs]
    rfl
  | none =>
    rw [hs] at h
    rw [resolveRead_ok hs, resolveRead_error h]
    rfl

/-- Two operands resolve, or the first fault is one of theirs. -/
theorem resolves_or_fault (s : State) (src dst : Operand) :
    s.Resolves src dst ∨ ∃ c, (s.operandFault src).or (s.operandFault dst) = some c := by
  unfold State.Resolves
  cases s.operandFault src with
  | some c => exact .inr ⟨c, rfl⟩
  | none =>
    cases s.operandFault dst with
    | some c => exact .inr ⟨c, rfl⟩
    | none => exact .inl ⟨rfl, rfl⟩

/-- The resolver looks at the registers, the memory and CAPACITY alone. -/
theorem resolveOperands_congr {s t : State} (hr : t.regs = s.regs) (hm : t.mem = s.mem) (hc : t.capacity = s.capacity)
    (src dst : Operand) : resolveOperands t src dst = resolveOperands s src dst := by
  cases s
  cases t
  simp only at hr hm hc
  subst hr hm hc
  rfl

/-! The operand write (R99). -/

/-- An operand write that answers wrote one register, or one cell below CAPACITY at the address the register held. -/
theorem resolveWrite_cases {s t : State} {o : Operand} {v : Word} (h : resolveWrite s o v = .ok t) :
    (o.mode = .register ∧ t = s.setReg o.field v) ∨
    (o.mode = .indirect ∧ (s.reg o.field).toNat < s.capacity ∧
      t = { s with mem := s.mem.write (s.reg o.field).toNat v }) := by
  obtain ⟨m, f⟩ := o
  cases m with
  | register => exact .inl ⟨rfl, by cases h; rfl⟩
  | indirect => exact .inr ⟨rfl, memWrite_cases h⟩
  | immediate => cases h
  | invalid => cases h

/-- Once the destination has resolved, a write through REGISTER or INDIRECT answers. -/
theorem resolveWrite_ok {s : State} {o : Operand} (v : Word) (h : s.operandFault o = none) (hm : o.mode ≠ .immediate) :
    ∃ t, resolveWrite s o v = .ok t := by
  obtain ⟨m, f⟩ := o
  cases m with
  | register => exact ⟨_, rfl⟩
  | indirect =>
    by_cases hf : s.capacity ≤ (s.reg f).toNat
    · simp [State.operandFault, hf] at h
    · exact ⟨_, memWrite_of_lt v (not_le.1 hf)⟩
  | immediate => exact absurd rfl hm
  | invalid => simp [State.operandFault] at h

/-- The effect of an operand write, in a canonical memory. -/
theorem resolveWrite_wrote {s t : State} {o : Operand} {v : Word} (hw : s.mem.wf = true)
    (h : resolveWrite s o v = .ok t) :
    Wrote s t o v ∧ t.pc = s.pc ∧ t.flag = s.flag ∧ SameControl s t := by
  unfold Wrote SameControl
  rcases resolveWrite_cases h with ⟨hm, rfl⟩ | ⟨hm, -, rfl⟩
  · refine ⟨⟨fun _ => ⟨fun f => State.reg_setReg s o.field f v, fun _ => rfl⟩, ?_⟩, rfl, rfl, rfl, rfl, rfl, rfl, rfl⟩
    simp [hm]
  · refine ⟨⟨?_, fun _ => ⟨fun f => rfl, fun a => Memory.read_write hw _ _ _⟩⟩, rfl, rfl, rfl, rfl, rfl, rfl, rfl⟩
    simp [hm]

/-! The end of a step (R103). -/

@[simp] theorem commit_ok (i : Instr) (s t : State) : commit i s (.ok t) = .next t := rfl

@[simp] theorem commit_error (i : Instr) (s : State) (c : Fault) :
    commit i s (.error c) = .next (s.takeFault c (some (encode i))) := rfl

/-- A step always ends in a next state: the committed result, or the fault taken. -/
theorem commit_cases {i : Instr} {s t : State} {r : Except Fault State} (h : commit i s r = .next t) :
    r = .ok t ∨ ∃ c, r = .error c ∧ t = s.takeFault c (some (encode i)) := by
  cases r with
  | ok u => cases h; exact .inl rfl
  | error c => cases h; exact .inr ⟨c, rfl, rfl⟩

/-! The arithmetic (41_data_ops.md R113). -/

theorem wrappingSum_toNat (d v : Word) : (wrappingSum d v).toNat = (d.toNat + v.toNat) % 2 ^ 16 := by
  simp [wrappingSum]

end Sys2Proof.Machine
end

