-- ==== Sys2Proof/Laws/PerInstr.lean ====
section
/-! SUPPORT. Facts about every instruction, one lemma per constructor. -/

namespace Sys2Proof.Laws

/-- The top four bits of the word of an instruction are its opcode (30_encoding.md R60, R68). -/
def OpcodeBits.Statement (i : Instr) : Prop := opcodeOf (encode i) = i.opcode

/-- The top four bits of a packed word are the opcode given. -/
theorem opcodeOf_packWord (op : Opcode) (src dst : Operand) : opcodeOf (packWord op src dst) = op := by
  apply BitVec.eq_of_toNat_eq
  have h1 := src.bits.isLt
  have h2 := dst.bits.isLt
  rw [opcodeOf_toNat, packWord_toNat]
  omega

theorem OpcodeBits.placeholder : OpcodeBits.Statement .placeholder := by
  unfold OpcodeBits.Statement; decide

theorem OpcodeBits.mov (src dst : Operand) : OpcodeBits.Statement (.mov src dst) := opcodeOf_packWord _ src dst

theorem OpcodeBits.cmp (src dst : Operand) : OpcodeBits.Statement (.cmp src dst) := opcodeOf_packWord _ src dst

theorem OpcodeBits.add (src dst : Operand) : OpcodeBits.Statement (.add src dst) := opcodeOf_packWord _ src dst

theorem OpcodeBits.dec (src dst : Operand) : OpcodeBits.Statement (.dec src dst) := opcodeOf_packWord _ src dst

theorem OpcodeBits.jlo (src dst : Operand) : OpcodeBits.Statement (.jlo src dst) := opcodeOf_packWord _ src dst

theorem OpcodeBits.jnz (src dst : Operand) : OpcodeBits.Statement (.jnz src dst) := opcodeOf_packWord _ src dst

theorem OpcodeBits.jmp (src dst : Operand) : OpcodeBits.Statement (.jmp src dst) := opcodeOf_packWord _ src dst

theorem OpcodeBits.nop (src dst : Operand) : OpcodeBits.Statement (.nop src dst) := opcodeOf_packWord _ src dst

theorem OpcodeBits.reserved0 (src dst : Operand) : OpcodeBits.Statement (.reserved0 src dst) := opcodeOf_packWord _ src dst

theorem OpcodeBits.reserved8 (src dst : Operand) : OpcodeBits.Statement (.reserved8 src dst) := opcodeOf_packWord _ src dst

theorem OpcodeBits.reserved9 (src dst : Operand) : OpcodeBits.Statement (.reserved9 src dst) := opcodeOf_packWord _ src dst

theorem OpcodeBits.reserved10 (src dst : Operand) : OpcodeBits.Statement (.reserved10 src dst) := opcodeOf_packWord _ src dst

theorem OpcodeBits.reserved11 (src dst : Operand) : OpcodeBits.Statement (.reserved11 src dst) := opcodeOf_packWord _ src dst

theorem OpcodeBits.reserved12 (src dst : Operand) : OpcodeBits.Statement (.reserved12 src dst) := opcodeOf_packWord _ src dst

theorem OpcodeBits.reserved13 (src dst : Operand) : OpcodeBits.Statement (.reserved13 src dst) := opcodeOf_packWord _ src dst

theorem OpcodeBits.reserved14 (src dst : Operand) : OpcodeBits.Statement (.reserved14 src dst) := opcodeOf_packWord _ src dst

end Sys2Proof.Laws
end

