-- ==== Sys2Proof/Laws/Step.lean ====
section
/-! SUPPORT. What an instruction and a step can do, said once. -/

namespace Sys2Proof.Machine

/-- What an instruction does with its two resolved values, before its end is committed. -/
def effect (i : Instr) (s : State) (srcValue dstValue : Word) : Except Fault State :=
  match i with
  | .placeholder => .ok s.advance
  | .mov _ dst => do
    let t ← resolveWrite s dst srcValue
    pure t.advance
  | .cmp _ _ => .ok (s.setFlag (compareFlag dstValue srcValue)).advance
  | .add _ dst => do
    let t ← resolveWrite s dst (wrappingSum dstValue srcValue)
    pure t.advance
  | .dec _ _ => .error .notImplemented
  | .jlo src _ => .ok (if s.flag then s.jumpTo src.field else s.advance)
  | .jnz _ _ => .error .notImplemented
  | .jmp src _ => .ok (s.jumpTo src.field)
  | .nop _ _ => .ok s.advance.halt
  | .reserved0 _ _ => .error .unknownInstruction
  | .reserved8 _ _ => .error .unknownInstruction
  | .reserved9 _ _ => .error .unknownInstruction
  | .reserved10 _ _ => .error .unknownInstruction
  | .reserved11 _ _ => .error .unknownInstruction
  | .reserved12 _ _ => .error .unknownInstruction
  | .reserved13 _ _ => .error .unknownInstruction
  | .reserved14 _ _ => .error .unknownInstruction

/-- Every instruction with operands resolves both, then takes its effect, then commits (40_step_and_operands.md R104). -/
theorem exec_eq_commit {i : Instr} {src dst : Operand} (h : i.operands = some (src, dst)) (s : State) :
    exec i s = commit i s (do
      let (srcValue, dstValue) ← resolveOperands s src dst
      effect i s srcValue dstValue) := by
  cases i <;> cases h <;> rfl

/-- An instruction whose operands resolve commits its effect. -/
theorem exec_of_resolves {i : Instr} {src dst : Operand} (h : i.operands = some (src, dst)) {s : State}
    (hr : s.Resolves src dst) : exec i s = commit i s (effect i s (s.operandValue src) (s.operandValue dst)) := by
  rw [exec_eq_commit h, resolveOperands_ok hr]
  rfl

/-- An instruction whose operands do not resolve takes their fault. -/
theorem exec_of_operandFault {i : Instr} {src dst : Operand} (h : i.operands = some (src, dst)) {s : State} {c : Fault}
    (hc : (s.operandFault src).or (s.operandFault dst) = some c) :
    exec i s = .next (s.takeFault c (some (encode i))) := by
  rw [exec_eq_commit h, resolveOperands_error hc]
  rfl

theorem exec_placeholder (s : State) : exec .placeholder s = .next s.advance := rfl

/-- Every instruction has a next state. -/
theorem exec_next (i : Instr) (s : State) : ∃ t, exec i s = .next t := by
  cases h : i.operands with
  | none =>
    cases i <;> first | exact ⟨_, rfl⟩ | cases h
  | some p =>
    obtain ⟨src, dst⟩ := p
    rw [exec_eq_commit h]
    generalize (do
      let (srcValue, dstValue) ← resolveOperands s src dst
      effect i s srcValue dstValue) = r
    cases r <;> exact ⟨_, rfl⟩

/-- What an effect that answers did: it advanced, jumped, set the flag and advanced, advanced and halted, or wrote its
destination and advanced. -/
theorem effect_cases {i : Instr} {s t : State} {a b : Word} (h : effect i s a b = .ok t) :
    t = s.advance ∨ (∃ f, t = s.jumpTo f) ∨ (∃ src dst, i = .cmp src dst ∧ t = (s.setFlag (compareFlag b a)).advance) ∨
    (∃ src dst, i = .nop src dst ∧ t = s.advance.halt) ∨
    ∃ src dst v u, (i = .mov src dst ∨ i = .add src dst) ∧ resolveWrite s dst v = .ok u ∧ t = u.advance := by
  have write : ∀ (dst : Operand) (v : Word), (do let u ← resolveWrite s dst v; pure u.advance) = Except.ok t →
      ∃ u, resolveWrite s dst v = .ok u ∧ t = u.advance := by
    intro dst v hw
    cases hu : resolveWrite s dst v with
    | error c => rw [hu] at hw; cases hw
    | ok u => rw [hu] at hw; cases hw; exact ⟨u, rfl, rfl⟩
  cases i with
  | mov src dst =>
    obtain ⟨u, hu, ht⟩ := write _ _ h
    exact .inr (.inr (.inr (.inr ⟨src, dst, _, u, .inl rfl, hu, ht⟩)))
  | add src dst =>
    obtain ⟨u, hu, ht⟩ := write _ _ h
    exact .inr (.inr (.inr (.inr ⟨src, dst, _, u, .inr rfl, hu, ht⟩)))
  | placeholder => cases h; exact .inl rfl
  | cmp src dst => cases h; exact .inr (.inr (.inl ⟨src, dst, rfl, rfl⟩))
  | jlo src dst =>
    cases h
    split
    · exact .inr (.inl ⟨_, rfl⟩)
    · exact .inl rfl
  | jmp src dst => cases h; exact .inr (.inl ⟨_, rfl⟩)
  | nop src dst => cases h; exact .inr (.inr (.inr (.inl ⟨src, dst, rfl, rfl⟩)))
  | dec | jnz | reserved0 | reserved8 | reserved9 | reserved10 | reserved11 | reserved12 | reserved13 | reserved14 =>
    cases h

/-- Everything an instruction can do: take a fault, or take its effect. -/
theorem exec_cases {i : Instr} {s t : State} (h : exec i s = .next t) :
    (∃ c, t = s.takeFault c (some (encode i))) ∨ ∃ a b, effect i s a b = .ok t := by
  cases ho : i.operands with
  | none =>
    cases i <;> first | (cases h; exact .inr ⟨0#16, 0#16, rfl⟩) | cases ho
  | some p =>
    obtain ⟨src, dst⟩ := p
    rcases resolves_or_fault s src dst with hr | ⟨c, hc⟩
    · rw [exec_of_resolves ho hr] at h
      rcases commit_cases h with h | ⟨c, -, rfl⟩
      · exact .inr ⟨_, _, h⟩
      · exact .inl ⟨c, rfl⟩
    · rw [exec_of_operandFault ho hc] at h
      cases h
      exact .inl ⟨c, rfl⟩

/-! The fetch (40_step_and_operands.md R91-R96). -/

/-- Every word decodes (R96). -/
theorem decode_toNat (w : InstrWord) : decode w.toNat = .ok (decodeWord w) := by
  unfold decode
  rw [if_pos w.isLt, BitVec.ofNat_toNat, BitVec.setWidth_eq]

theorem fetch_of_not_ready {s : State} (h : s.status ≠ .ready) : fetch s = .stopped := by
  unfold fetch
  cases hs : s.status with
  | ready => exact absurd hs h
  | halted => rfl
  | faulted c => rfl

theorem fetch_of_pcOutside {s : State} (hr : s.status = .ready) (h : ¬s.pcInProgram) :
    fetch s = .trap .pcOutOfProgram none := by
  unfold fetch
  rw [hr]
  exact if_neg h

theorem fetch_of_pcInProgram {s : State} (hr : s.status = .ready) (h : s.pcInProgram) :
    fetch s = .run (decodeWord (s.mem.read s.pc)) := by
  unfold fetch
  rw [hr]
  simp only [if_pos h, State.fetchWord, decode_toNat]

/-! The step (R104). -/

theorem step_of_not_ready {s : State} (h : s.status ≠ .ready) : step s = .next s := by
  unfold step
  rw [fetch_of_not_ready h]

theorem step_of_pcOutside {s : State} (hr : s.status = .ready) (h : ¬s.pcInProgram) :
    step s = .next (s.takeFault .pcOutOfProgram none) := by
  unfold step
  rw [fetch_of_pcOutside hr h]

theorem step_of_pcInProgram {s : State} (hr : s.status = .ready) (h : s.pcInProgram) :
    step s = exec (decodeWord (s.mem.read s.pc)) s := by
  unfold step
  rw [fetch_of_pcInProgram hr h]

/-- Everything a step can do: nothing in a stopped core, the fault of a fetch outside the program, or the instruction of
the fetched word. -/
theorem step_cases {s t : State} (h : step s = .next t) :
    (s.status ≠ .ready ∧ t = s) ∨
    (s.status = .ready ∧ ¬s.pcInProgram ∧ t = s.takeFault .pcOutOfProgram none) ∨
    (s.status = .ready ∧ s.pcInProgram ∧ exec (decodeWord (s.mem.read s.pc)) s = .next t) := by
  by_cases hr : s.status = .ready
  · by_cases hp : s.pcInProgram
    · rw [step_of_pcInProgram hr hp] at h
      exact .inr (.inr ⟨hr, hp, h⟩)
    · rw [step_of_pcOutside hr hp] at h
      cases h
      exact .inr (.inl ⟨hr, hp, rfl⟩)
  · rw [step_of_not_ready hr] at h
    cases h
    exact .inl ⟨hr, rfl⟩

/-! Runs. -/

/-- A run of one step more, for any machine of the host's interface. -/
theorem run_succ_core (M : Host.Core) {s t : M.State} (k : Nat) (h : M.step s = .next t) : M.run (k + 1) s = M.run k t := by
  rw [Host.Core.run, h]

theorem run_succ {s t : State} (k : Nat) (h : step s = .next t) :
    Host.Core.run Sys2Proof.core (k + 1) s = Host.Core.run Sys2Proof.core k t :=
  run_succ_core Sys2Proof.core k h

/-! LOAD (70_reset_and_hazards.md R152, R153). -/

/-- A LOAD that answers fits the program region, has 16-bit words only, and makes the writes of R152. -/
theorem loadProgram_cases {s t : State} {words : List Nat} (h : s.loadProgram words = .ok t) :
    words.length ≤ s.capacity - s.offset ∧ (∀ w ∈ words, w < 2 ^ 16) ∧ t = s.startRun words := by
  unfold State.loadProgram at h
  split at h
  · cases h
  · split at h
    · cases h
    · rename_i h1 h2
      cases h
      refine ⟨by omega, fun w hw => ?_, rfl⟩
      by_contra hc
      exact h2 (List.any_eq_true.2 ⟨w, hw, decide_eq_true (by omega)⟩)

theorem loadProgram_ok {s : State} {words : List Nat} (hl : words.length ≤ s.capacity - s.offset)
    (hw : ∀ w ∈ words, w < 2 ^ 16) : s.loadProgram words = .ok (s.startRun words) := by
  unfold State.loadProgram
  rw [if_neg (by omega), if_neg]
  intro hc
  obtain ⟨w, hm, hd⟩ := List.any_eq_true.1 hc
  have := hw w hm
  have := of_decide_eq_true hd
  omega

/-! The other operations of the host (R150, R157), and placing an instruction. -/

/-- A HOSTWRITE that is accepted sets one cell of the data region. -/
theorem hostWrite_cases {s t : State} {a v : Nat} (h : s.hostWrite a v = some t) :
    a < s.offset ∧ v < 2 ^ 16 ∧ t = { s with mem := s.mem.write a (BitVec.ofNat 16 v) } := by
  unfold State.hostWrite at h
  split at h
  · rename_i hc
    cases h
    exact ⟨hc.1, hc.2, rfl⟩
  · cases h

/-- A construction that is accepted has legal arguments and gives the power-on state. -/
theorem construct_cases {capacity offset : Nat} {s : State} (h : State.construct capacity offset = some s) :
    1 ≤ capacity ∧ offset ≤ capacity ∧ s = State.powerOn capacity offset := by
  unfold State.construct at h
  split at h
  · rename_i hc
    cases h
    exact ⟨hc.1, hc.2, rfl⟩
  · cases h

/-- Placing an instruction writes the cell at pc, or is a LOAD of one word, or finds no program region. -/
theorem placeInstr_cases (s : State) (w : InstrWord) :
    (s.status = .ready ∧ s.pcInProgram ∧ s.placeInstr w = { s with mem := s.mem.write s.pc w }) ∨
    (1 ≤ s.capacity - s.offset ∧ s.placeInstr w = s.startRun [w.toNat]) ∨
    (s.capacity - s.offset = 0 ∧ s.placeInstr w = s) := by
  by_cases hc : s.status = .ready ∧ s.pcInProgram
  · exact .inl ⟨hc.1, hc.2, if_pos hc⟩
  · have hp : s.placeInstr w = match s.loadProgram [w.toNat] with
        | .ok t => t
        | .error _ => s := if_neg hc
    by_cases hl : 1 ≤ s.capacity - s.offset
    · have hw : ∀ x ∈ [w.toNat], x < 2 ^ 16 := by
        intro x hx
        rw [List.mem_singleton.1 hx]
        exact w.isLt
      rw [loadProgram_ok (words := [w.toNat]) hl hw] at hp
      exact .inr (.inl ⟨hl, hp⟩)
    · have he : s.loadProgram [w.toNat] = .error .capacityExceeded := if_pos (by simp; omega)
      rw [he] at hp
      exact .inr (.inr ⟨by omega, hp⟩)

end Sys2Proof.Machine
end

