-- ==== Sys2Proof/Tests/Slice0.lean ====
section
/-! SUPPORT. Tests. Each expected result is from spec/95_test_vectors.md, or, for a decoding, from the fields of the word
written out (30_encoding.md R60, R68). -/

namespace Sys2Proof.Tests

open Sys2Proof Sys2Proof.Machine

/-! ## Well-formedness: the one check, and the ill-formed term it refuses (R69, R70). -/

theorem test_wf_refuses_reserved0_without_a_bit :
    Instr.wf (.reserved0 ⟨.register, 0#4⟩ ⟨.register, 0#4⟩) = false := by decide

theorem test_wf_admits_reserved0_with_a_bit :
    Instr.wf (.reserved0 ⟨.register, 0#4⟩ ⟨.register, 1#4⟩) = true := by decide

/-! ## Decoding: one word for each constructor, its bits in the groups opcode, srcMode, srcField, dstMode, dstField. -/

theorem test_decode_placeholder : decodeWord 0b0000_00_0000_00_0000#16 = .placeholder := by decide

theorem test_decode_mov :
    decodeWord 0b0001_10_0101_00_0001#16 =
      .mov ⟨.immediate, 5#4⟩ ⟨.register, 1#4⟩ := by decide

theorem test_decode_cmp :
    decodeWord 0b0010_11_1000_11_1100#16 =
      .cmp ⟨.invalid, 8#4⟩ ⟨.invalid, 12#4⟩ := by decide

theorem test_decode_add :
    decodeWord 0b0011_00_1011_10_0111#16 =
      .add ⟨.register, 11#4⟩ ⟨.immediate, 7#4⟩ := by decide

theorem test_decode_dec :
    decodeWord 0b0100_01_1110_01_0010#16 =
      .dec ⟨.indirect, 14#4⟩ ⟨.indirect, 2#4⟩ := by decide

theorem test_decode_jlo :
    decodeWord 0b0101_10_0001_00_1101#16 =
      .jlo ⟨.immediate, 1#4⟩ ⟨.register, 13#4⟩ := by decide

theorem test_decode_jnz :
    decodeWord 0b0110_11_0100_11_1000#16 =
      .jnz ⟨.invalid, 4#4⟩ ⟨.invalid, 8#4⟩ := by decide

theorem test_decode_jmp :
    decodeWord 0b0111_00_0111_10_0011#16 =
      .jmp ⟨.register, 7#4⟩ ⟨.immediate, 3#4⟩ := by decide

theorem test_decode_nop :
    decodeWord 0b1111_01_1010_01_1110#16 =
      .nop ⟨.indirect, 10#4⟩ ⟨.indirect, 14#4⟩ := by decide

theorem test_decode_reserved0 :
    decodeWord 0b0000_10_1101_00_1001#16 =
      .reserved0 ⟨.immediate, 13#4⟩ ⟨.register, 9#4⟩ := by decide

theorem test_decode_reserved8 :
    decodeWord 0b1000_11_0000_11_0100#16 =
      .reserved8 ⟨.invalid, 0#4⟩ ⟨.invalid, 4#4⟩ := by decide

theorem test_decode_reserved9 :
    decodeWord 0b1001_00_0011_10_1111#16 =
      .reserved9 ⟨.register, 3#4⟩ ⟨.immediate, 15#4⟩ := by decide

theorem test_decode_reserved10 :
    decodeWord 0b1010_01_0110_01_1010#16 =
      .reserved10 ⟨.indirect, 6#4⟩ ⟨.indirect, 10#4⟩ := by decide

theorem test_decode_reserved11 :
    decodeWord 0b1011_10_1001_00_0101#16 =
      .reserved11 ⟨.immediate, 9#4⟩ ⟨.register, 5#4⟩ := by decide

theorem test_decode_reserved12 :
    decodeWord 0b1100_11_1100_11_0000#16 =
      .reserved12 ⟨.invalid, 12#4⟩ ⟨.invalid, 0#4⟩ := by decide

theorem test_decode_reserved13 :
    decodeWord 0b1101_00_1111_10_1011#16 =
      .reserved13 ⟨.register, 15#4⟩ ⟨.immediate, 11#4⟩ := by decide

theorem test_decode_reserved14 :
    decodeWord 0b1110_01_0010_01_0110#16 =
      .reserved14 ⟨.indirect, 2#4⟩ ⟨.indirect, 6#4⟩ := by decide

/-- Test vector S2: `ADD R15, R7`. -/
theorem test_decode_add_vector : decodeTableWord 16 0x33C7 = some (.add ⟨.register, 15#4⟩ ⟨.register, 7#4⟩) := by decide

theorem test_decode_rejects_overWide : decode 0x15000 = .error (.overWide 0x15000) := by decide

theorem test_encode_mov : encode (.mov ⟨.immediate, 5#4⟩ ⟨.register, 0#4⟩) = 0x1940#16 := by decide

/-! ## One step, from the common start state of 95_test_vectors.md: CAPACITY 1024, OFFSET 16, one word LOADed. -/

/-- The state after LOADing a program into a machine. -/
def loaded (s : State) (words : List Nat) : State :=
  match s.loadProgram words with
  | .ok t => t
  | .error _ => s

/-- The common start state with the word under test. -/
def start (w : Nat) : State := loaded State.reset [w]

/-- Some property of the state after one step. -/
def after (s : State) (p : State → Bool) : Bool :=
  match step s with
  | .next t => p t
  | _ => false

/-- The step only latches the fault, with this cause and the word under test: "status only; pc=16". -/
def faultsOnly (s : State) (c : Fault) (w : Word) : Bool :=
  after s fun t => t == { s with status := .faulted c, record := some ⟨c, 16, some w⟩ }

/-- The state with one register set. -/
abbrev reg (s : State) (n : Nat) (v : Nat) : State := s.setReg (BitVec.ofNat 4 n) (BitVec.ofNat 16 v)

/-- The state with one cell set. -/
def cell (s : State) (a v : Nat) : State := { s with mem := s.mem.write a (BitVec.ofNat 16 v) }

theorem test_placeholder : after (reg (loaded State.reset [0, 0]) 0 1)
    (fun t => t == { reg (loaded State.reset [0, 0]) 0 1 with pc := 17 }) = true := by decide

theorem test_mov_indirect_address_is_value : after (reg (start 0x1092) 2 7)
    (fun t => t.mem.read 7 == 7#16 && t.pc == 17 && t.reg 2 == 7#16 && t.outcome == .continuing) = true := by decide

theorem test_mov_last_cell_and_beyond :
    (after (reg (reg (start 0x1011) 0 42) 1 1023) (fun t => t.mem.read 1023 == 42#16) &&
      faultsOnly (reg (reg (start 0x1011) 0 42) 1 1024) .memoryOutOfRange 0x1011#16) = true := by decide

theorem test_cmp_less_sets_flag : after (reg (reg (start 0x2040) 0 2) 1 5)
    (fun t => t == { reg (reg (start 0x2040) 0 2) 1 5 with flag := true, pc := 17 }) = true := by decide

theorem test_cmp_is_unsigned_and_clears : after { reg (start 0x2840) 0 0xFFFF with flag := true }
    (fun t => t.flag == false && t.reg 0 == 0xFFFF#16) = true := by decide

theorem test_add_wraps_and_keeps_flag : after { reg (start 0x3840) 0 0xFFFF with flag := true }
    (fun t => t.reg 0 == 0#16 && t.flag == true && t.pc == 17) = true := by decide

theorem test_add_indirect_destination : after (cell (reg (start 0x3092) 2 6) 6 10)
    (fun t => t.mem.read 6 == 16#16 && t.reg 2 == 6#16) = true := by decide

theorem test_jlo_taken_and_not :
    (after { loaded State.reset [0x5080, 0, 0, 0] with flag := true } (fun t => t.pc == 18 && t.flag == true) &&
      after (loaded State.reset [0x5080, 0, 0, 0]) (fun t => t.pc == 17)) = true := by decide

theorem test_jlo_unused_operand_faults :
    faultsOnly { reg (start 0x5500) 4 2000 with flag := true } .memoryOutOfRange 0x5500#16 = true := by decide

theorem test_jmp : after (start 0x70C0) (fun t => t == { start 0x70C0 with pc := 19 }) = true := by decide

theorem test_nop_halts : after (reg (start 0xF0C5) 0 3)
    (fun t => t == { reg (start 0xF0C5) 0 3 with pc := 17, status := .halted }) = true := by decide

theorem test_nop_resolution_fault_comes_first :
    faultsOnly (start 0xFC00) .invalidAddressingMode 0xFC00#16 = true := by decide

theorem test_dec : faultsOnly (reg (start 0x4000) 0 5) .notImplemented 0x4000#16 = true := by decide

theorem test_jnz : faultsOnly { start 0x6080 with flag := true } .notImplemented 0x6080#16 = true := by decide

theorem test_reserved0 : (faultsOnly (start 0x0001) .unknownInstruction 0x0001#16 &&
    faultsOnly (start 0x0C00) .invalidAddressingMode 0x0C00#16) = true := by decide

theorem test_reserved8_to_14 : ([0x8000, 0x9020, 0xA000, 0xB000, 0xC000, 0xD000, 0xE000].all fun w =>
    faultsOnly (start w) .unknownInstruction (BitVec.ofNat 16 w)) = true := by decide

theorem test_immediate_destination : (faultsOnly (start 0x1862) .invalidDestination 0x1862#16 &&
    faultsOnly (start 0x38A3) .invalidDestination 0x38A3#16) = true := by decide

theorem test_pc_outside_records_no_word : after { start 0x1940 with pc := 17 }
    (fun t => t.record == some ⟨.pcOutOfProgram, 17, none⟩ && t.pc == 17) = true := by decide

theorem test_halted_step_changes_nothing :
    after { start 0xF000 with status := .halted } (fun t => t == { start 0xF000 with status := .halted }) = true := by
  decide

/-! ## The host's operations (95_test_vectors.md, section 3). -/

/-- The start state of the first LOAD vector. -/
def beforeLoad : State := { reg (cell (cell State.reset 100 5) 2 8) 3 9 with flag := true, status := .halted }

theorem test_load : (loaded beforeLoad [0x1940] ==
    { beforeLoad with mem := [(2, 8#16), (16, 0x1940#16)], plen := 1, status := .ready }) = true := by decide

theorem test_load_refusals :
    hostApply (.load [0x15000]) State.reset = (State.reset, .loadRefused .wordOutOfRange) ∧
      hostApply (.load [0x15000, 0]) { State.reset with capacity := 17 } =
        ({ State.reset with capacity := 17 }, .loadRefused .capacityExceeded) := by decide

theorem test_host_write_and_refusal :
    (State.reset.hostWrite 15 7).map (fun t => t.mem) = some [(15, 7#16)] ∧ State.reset.hostWrite 16 7 = none := by
  decide

theorem test_construct_refuses : State.construct 0 0 = none ∧ State.construct 4 5 = none := by decide

theorem test_snapshot : (State.powerOn 3 1).snapshot.cells = [0#16, 0#16, 0#16] := by decide

theorem test_withFetchWord : after (State.reset.withFetchWord 16 0x1940)
    (fun t => t.reg 0 == 5#16 && t.pc == 17) = true := by decide

/-! ## The assembler (95_test_vectors.md, sections 1 and 4). -/

theorem test_assemble_mov : Assembler.assemble "MOV #5, R0".toList = .ok [0x1940] := by decide

theorem test_assemble_labels : Assembler.assemble "A:\nB:\n\n jmp B".toList = .ok [0x0000, 0x0000, 0x7040] := by decide

theorem test_assemble_errors :
    Assembler.assemble "FOO".toList = .error .unknownInstruction ∧
      Assembler.assemble "MOV R0, R16".toList = .error .registerOutOfRange ∧
      Assembler.assemble "JMP L".toList = .error .unknownOperand := by decide

/-- R76: malformed digits are out of range in the `Rn` form only; `@R` and anything else that is no number matches no
form. R82: `n >= 16` is out of range in all of them. -/
theorem test_assemble_malformed_register_tokens :
    (["Rx", "R", "R16", "@R16", "@16"].all fun t => Assembler.operand [] t.toList == .error .registerOutOfRange) = true ∧
      (["@Rx", "@R", "@", "@x", "#x"].all fun t => Assembler.operand [] t.toList == .error .unknownOperand) = true ∧
      Assembler.operand [] "@R15".toList = .ok (1, 15) := by decide

theorem test_assemble_no_destination_and_indirect :
    Assembler.assemble "MOV #5\nNOP\nMOV @3, R1".toList = .ok [0x1940, 0xF000, 0x14C1] := by decide

/-! ## States that meet the hypotheses of the statements, together; one for each clause, at the ends of its ranges. -/

/-- The fetch of the common start state is in range: the hypotheses of the statements about a step of a READY core. -/
theorem witness_ready_in_program :
    (start 0x1940).status = .ready ∧ (start 0x1940).offset ≤ (start 0x1940).pc ∧
      (start 0x1940).pc < (start 0x1940).offset + (start 0x1940).plen ∧
      decode ((start 0x1940).mem.read (start 0x1940).pc).toNat = .ok (.mov ⟨.immediate, 5#4⟩ ⟨.register, 0#4⟩) ∧
      Instr.wf (.mov ⟨.immediate, 5#4⟩ ⟨.register, 0#4⟩) = true := by decide

theorem witness_wellFormed : Instr.wf (.reserved0 ⟨.invalid, 15#4⟩ ⟨.register, 0#4⟩) = true := by decide

/-- The last cells of each field's range. -/
theorem witness_formula_fields :
    15 < 16 ∧ 3 < 4 ∧ Instr.operands (.nop ⟨.invalid, 15#4⟩ ⟨.invalid, 15#4⟩) =
      some (⟨.invalid, 15#4⟩, ⟨.invalid, 15#4⟩) := by decide

theorem witness_nonzero_words :
    (1#16 : InstrWord) ≠ 0#16 ∧ (0x0FFF#16).toNat < 2 ^ 12 ∧ (0x0FFF#16 : InstrWord) ≠ 0#16 := by decide

theorem witness_wide_values : 65535 < 2 ^ 16 ∧ 2 ^ 16 ≤ 65536 := by decide

/-- Just past the program, and just below OFFSET. -/
theorem witness_pc_outside : ∀ pc ∈ [17, 15],
    ({ start 0x1940 with pc := pc }).status = .ready ∧
      ¬(({ start 0x1940 with pc := pc }).offset ≤ pc ∧ pc < (start 0x1940).offset + (start 0x1940).plen) := by decide

theorem witness_placeholder_fetched :
    (start 0).status = .ready ∧ (start 0).offset ≤ (start 0).pc ∧ (start 0).pc < (start 0).offset + (start 0).plen ∧
      (start 0).mem.read (start 0).pc = 0#16 := by decide

/-- A HALTED and a FAULTED core, and operations that are no LOAD. -/
theorem witness_stopped :
    ({ start 0 with status := .halted }).status = .halted ∧
      ((start 0).takeFault .notImplemented none).status = .faulted .notImplemented ∧
      ∀ op ∈ [HostOp.step, .snapshot, .hostWrite 15 1], ∀ ws, op ≠ .load ws := by
  refine ⟨rfl, rfl, fun op h ws => ?_⟩
  simp only [List.mem_cons, List.not_mem_nil, or_false] at h
  rcases h with rfl | rfl | rfl <;> exact nofun

/-- Steps that fault: of an instruction, and outside the program. -/
theorem witness_faulting_steps :
    (∃ t, (start 0x4000).status = .ready ∧ step (start 0x4000) = .next t ∧ t.status = .faulted .notImplemented) ∧
      ∃ t, State.reset.status = .ready ∧ step State.reset = .next t ∧ t.status = .faulted .pcOutOfProgram :=
  ⟨⟨_, rfl, rfl, rfl⟩, ⟨_, rfl, rfl, rfl⟩⟩

/-- A jump, a fault and an advance, for the statements about the pc and about the first fault. -/
theorem witness_pc_cases :
    (start 0x7C00).firstFault = some .invalidAddressingMode ∧ (start 0x70C0).firstFault = none ∧
      ((start 0x70C0).mem.read 16).toNat / 2 ^ 12 = 7 ∧ (start 0x1940).firstFault = none ∧
      ((start 0x1940).mem.read 16).toNat / 2 ^ 12 = 1 := by decide

/-- A step that writes a register, one that writes a cell, and one that writes neither. -/
theorem witness_frame_cases :
    (∃ t, step (start 0x1940) = .next t) ∧ (dstOf ((start 0x1940).mem.read 16)).mode = .register ∧
      (∃ t, step (reg (start 0x1092) 2 7) = .next t) ∧ (dstOf ((start 0x1092).mem.read 16)).mode = .indirect ∧
      (∃ t, step (start 0x2040) = .next t) ∧ opcodeOf ((start 0x2040).mem.read 16) = 2#4 :=
  ⟨⟨_, rfl⟩, by decide, ⟨_, rfl⟩, by decide, ⟨_, rfl⟩, by decide⟩

/-- A source fault, and a destination fault behind a source that resolves. -/
theorem witness_operand_faults :
    ((start 0).operandFault ⟨.invalid, 0#4⟩).or ((start 0).operandFault ⟨.register, 0#4⟩) =
        some .invalidAddressingMode ∧
      ((reg (start 0) 1 1024).operandFault ⟨.register, 0#4⟩).or
        ((reg (start 0) 1 1024).operandFault ⟨.indirect, 1#4⟩) = some .memoryOutOfRange := by decide

/-- An INDIRECT operand at the last cell resolves. -/
theorem witness_indirect_resolves :
    (reg (start 0) 1 1023).mem.wf = true ∧ resolveRead (reg (start 0) 1 1023) ⟨.indirect, 1#4⟩ = .ok 0#16 := by decide

/-- Operands that resolve, for every statement with `Resolves`: a REGISTER and an INDIRECT destination that are no
IMMEDIATE, and an IMMEDIATE one for CMP, JLO, JMP and NOP. -/
theorem witness_operands_resolve :
    (start 0).mem.wf = true ∧
      (start 0).Resolves ⟨.immediate, 15#4⟩ ⟨.register, 15#4⟩ ∧
      (reg (start 0) 1 1023).Resolves ⟨.indirect, 1#4⟩ ⟨.indirect, 1#4⟩ ∧
      (start 0).Resolves ⟨.register, 0#4⟩ ⟨.immediate, 2#4⟩ :=
  ⟨by decide, ⟨by decide, by decide⟩, ⟨by decide, by decide⟩, ⟨by decide, by decide⟩⟩

theorem witness_immediate_destination :
    (start 0).operandFault ⟨.register, 0#4⟩ = none ∧ (⟨.immediate, 2#4⟩ : Operand).mode = .immediate := by decide

/-- The two-word program of `MOV R2, @R1` (0x1091) or `ADD R2, @R1` (0x3091) and the word 0, with R1 naming the next cell,
or its own. -/
def storing (w a : Nat) : State := reg (loaded State.reset [w, 0]) 1 a

theorem witness_storing_inv (w a : Nat) (hw : w = 0x1091 ∨ w = 0x3091) (h : a = 16 ∨ a = 17) : (storing w a).Inv := by
  rcases hw with rfl | rfl <;> rcases h with rfl | rfl <;> constructor <;> decide

theorem witness_storing_hypotheses : ∀ w ∈ [0x1091, 0x3091], ∀ a ∈ [16, 17],
    (storing w a).status = .ready ∧ (storing w a).pc + 1 < (storing w a).offset + (storing w a).plen ∧
      (storing w a).operandFault ⟨.register, 2#4⟩ = none ∧ (storing w a).operandFault ⟨.indirect, 1#4⟩ = none ∧
      ((storing w a).reg 1#4).toNat = a := by decide

theorem witness_storing_decodes : ∀ a ∈ [16, 17],
    decode ((storing 0x1091 a).mem.read (storing 0x1091 a).pc).toNat =
        .ok (.mov ⟨.register, 2#4⟩ ⟨.indirect, 1#4⟩) ∧
      decode ((storing 0x3091 a).mem.read (storing 0x3091 a).pc).toNat =
        .ok (.add ⟨.register, 2#4⟩ ⟨.indirect, 1#4⟩) := by decide

/-- `JMP 1` and `JLO 1` in a one-word program, with the flag set: the first position beyond it. -/
def jumping (w : Nat) : State := { start w with flag := true }

theorem witness_jump_beyond : ∀ w ∈ [0x7040, 0x5040],
    (jumping w).status = .ready ∧ (jumping w).offset ≤ (jumping w).pc ∧
      (jumping w).pc < (jumping w).offset + (jumping w).plen ∧ (jumping w).flag = true ∧
      (jumping w).operandFault ⟨.register, 1#4⟩ = none ∧ (jumping w).operandFault ⟨.register, 0#4⟩ = none ∧
      (jumping w).plen ≤ (1#4).toNat := by decide

theorem witness_jump_decodes :
    decode ((jumping 0x7040).mem.read (jumping 0x7040).pc).toNat = .ok (.jmp ⟨.register, 1#4⟩ ⟨.register, 0#4⟩) ∧
      decode ((jumping 0x5040).mem.read (jumping 0x5040).pc).toNat = .ok (.jlo ⟨.register, 1#4⟩ ⟨.register, 0#4⟩) := by
  decide

/-- The canonical halt word, and the word of opcode 15 with an IMMEDIATE source and an INDIRECT destination, each field at
its largest. -/
theorem witness_halt_word : ∀ w ∈ [0xF000, 0xFBDF],
    (start w).status = .ready ∧ (start w).offset ≤ (start w).pc ∧ (start w).pc < (start w).offset + (start w).plen ∧
      (start w).mem.read (start w).pc = BitVec.ofNat 16 w ∧ (BitVec.ofNat 16 w).toNat / 2 ^ 12 = 15 ∧
      (start w).operandFault (srcOf (BitVec.ofNat 16 w)) = none ∧
      (start w).operandFault (dstOf (BitVec.ofNat 16 w)) = none := by decide

theorem witness_run_ends : RunEndsAt (start 0xF000) 0 .halted :=
  ⟨nofun, fun _ _ h1 h2 => absurd h1 (by omega), _, rfl, rfl⟩

/-- A step that changes the flag, and an instruction that is no JLO. -/
theorem witness_flag_changes :
    (∃ t, step (reg (start 0x2840) 0 0) = .next t ∧ t.flag ≠ (reg (start 0x2840) 0 0).flag) ∧
      ∀ src dst, Instr.placeholder ≠ .jlo src dst :=
  ⟨⟨_, rfl, by decide⟩, nofun⟩

theorem witness_addresses :
    (start 0).mem.wf = true ∧ 1023 < (start 0).capacity ∧ (start 0).capacity ≤ 1024 := by decide

theorem witness_equal_memories :
    Memory.wf [(3, 5#16), (4, 1#16)] = true ∧ Memory.wf (Memory.write (Memory.write [] 4 1#16) 3 5#16) = true ∧
      Memory.write (Memory.write [] 4 1#16) 3 5#16 = [(3, 5#16), (4, 1#16)] := by decide

theorem witness_construct :
    (1 ≤ 1 ∧ 1 ≤ 1) ∧ State.construct 1 1 = some (State.powerOn 1 1) ∧ ¬(1 ≤ 0 ∧ 0 ≤ 0) ∧ ¬(1 ≤ 1 ∧ 2 ≤ 1) := by decide

/-- A program that fills its region, and none at all in an empty region. -/
theorem witness_load_fits :
    (State.powerOn 3 1).mem.wf = true ∧ (State.powerOn 3 1).offset ≤ (State.powerOn 3 1).capacity ∧
      [0x1940, 0xFFFF].length ≤ (State.powerOn 3 1).capacity - (State.powerOn 3 1).offset ∧
      (∀ w ∈ [0x1940, 0xFFFF], w < 2 ^ 16) ∧
      ([] : List Nat).length ≤ (State.powerOn 1 1).capacity - (State.powerOn 1 1).offset := by decide

theorem witness_load_refused :
    (State.powerOn 3 1).capacity - (State.powerOn 3 1).offset < [0, 0, 0].length ∧
      [0x10000, 0].length ≤ (State.powerOn 3 1).capacity - (State.powerOn 3 1).offset ∧
      (∃ w ∈ [0x10000, 0], 2 ^ 16 ≤ w) :=
  ⟨by decide, by decide, 0x10000, by decide, by decide⟩

theorem witness_load_accepted : hostApply (.load [7]) (State.powerOn 3 1) = (loaded (State.powerOn 3 1) [7], .ok) := by
  decide

/-- A LOAD from a state with the invariant, and a run after it. -/
theorem witness_load_then_run :
    (storing 0x1091 17).Inv ∧ (storing 0x1091 17).loadProgram [0xF000] = .ok (loaded (storing 0x1091 17) [0xF000]) ∧
      ∃ u, Reaches (loaded (storing 0x1091 17) [0xF000]) 1 u :=
  ⟨witness_storing_inv 0x1091 17 (.inl rfl) (.inr rfl), rfl, _, rfl⟩

/-- The last cell of the data region with the largest word; the first cell outside it; the first value too wide. -/
theorem witness_host_writes :
    (start 0).mem.wf = true ∧ 15 < (start 0).offset ∧ 65535 < 2 ^ 16 ∧ (start 0).offset ≤ 16 ∧ 2 ^ 16 ≤ 65536 := by decide

theorem witness_snapshot_cell : 1023 < (start 0).capacity := by decide

theorem witness_step_from_inv : (storing 0x1091 17).Inv ∧ ∃ t, step (storing 0x1091 17) = .next t :=
  ⟨witness_storing_inv 0x1091 17 (.inl rfl) (.inr rfl), _, rfl⟩

/-- A state with the invariant and a program region, READY in its program; and one outside it. -/
theorem witness_place :
    (storing 0x1091 17).Inv ∧ (storing 0x1091 17).offset < (storing 0x1091 17).capacity ∧ 65535 < 2 ^ 16 ∧
      (storing 0x1091 17).status = .ready ∧ (storing 0x1091 17).pcInProgram :=
  ⟨witness_storing_inv 0x1091 17 (.inl rfl) (.inr rfl), by decide, by decide, by decide, by decide⟩

theorem witness_assembly :
    Assembler.assembleLines [.blank, .instr ['N', 'O', 'P'] [], .label ['L']] = .ok [0xF000, 0] ∧
      [.blank, .instr ['N', 'O', 'P'] [], .label ['L']] =
        [.blank, Assembler.Line.instr ['N', 'O', 'P'] []] ++ .label ['L'] :: [] ∧
      (['L'], 1) ∈ Assembler.labelTable 0 0 [.blank, .instr ['N', 'O', 'P'] [], .label ['L']] := by decide

end Sys2Proof.Tests
end

/-! PROOFS. The family of 10_state.md: what a step does to the state, and what the host's operations leave alone. -/

namespace Sys2Proof.Machine

/-! ## Decoding names the fields of the word (30_encoding.md R62, R68) -/

/-- The instruction of a word has the opcode of the word's top four bits. -/
theorem decodeWord_opcode (w : InstrWord) : (decodeWord w).opcode = opcodeOf w := by
  have hlt := (opcodeOf w).isLt
  apply BitVec.eq_of_toNat_eq
  unfold decodeWord
  split
  case h_1 h => split <;> exact h.symm
  case h_16 =>
    simp only [imp_false] at *
    have h15 : (opcodeOf w).toNat = 15 := by omega
    exact h15.symm
  all_goals exact Eq.symm ‹_›

/-- The operands of a word's instruction, where it has any, are those in the word's operand fields. -/
theorem decodeWord_operands {w : InstrWord} {src dst : Operand} (h : (decodeWord w).operands = some (src, dst)) :
    src = srcOf w ∧ dst = dstOf w := by
  unfold decodeWord at h
  split at h
  case h_1 =>
    split at h
    · cases h
    · cases h; exact ⟨rfl, rfl⟩
  all_goals cases h; exact ⟨rfl, rfl⟩

/-- Only the placeholder has no operands (R67, R94). -/
theorem eq_placeholder_of_operands {i : Instr} (h : i.operands = none) : i = .placeholder := by
  cases i with
  | placeholder => rfl
  | _ => cases h

/-! ## No executed instruction reports a fetch outside the program (60_exceptions.md R131) -/

theorem operandFault_ne_pcOutOfProgram (s : State) (o : Operand) : s.operandFault o ≠ some .pcOutOfProgram := by
  obtain ⟨m, f⟩ := o
  cases m with
  | indirect => unfold State.operandFault; simp
  | register | immediate | invalid => simp [State.operandFault]

theorem resolveWrite_error_ne_pcOutOfProgram {s : State} {o : Operand} {v : Word} {c : Fault}
    (h : resolveWrite s o v = .error c) : c ≠ .pcOutOfProgram := by
  obtain ⟨m, f⟩ := o
  cases m with
  | indirect =>
    by_cases hf : s.capacity ≤ (s.reg f).toNat
    · cases (memWrite_of_le v hf).symm.trans h; decide
    · cases (memWrite_of_lt v (not_le.1 hf)).symm.trans h
  | register => cases h
  | immediate | invalid => cases h; decide

theorem effect_mov (src dst : Operand) (s : State) (a b : Word) :
    effect (.mov src dst) s a b = (resolveWrite s dst a).map State.advance := by
  simp only [effect]
  cases resolveWrite s dst a <;> rfl

theorem effect_add (src dst : Operand) (s : State) (a b : Word) :
    effect (.add src dst) s a b = (resolveWrite s dst (wrappingSum b a)).map State.advance := by
  simp only [effect]
  cases resolveWrite s dst (wrappingSum b a) <;> rfl

theorem effect_error_ne_pcOutOfProgram {i : Instr} {s : State} {a b : Word} {c : Fault}
    (h : effect i s a b = .error c) : c ≠ .pcOutOfProgram := by
  have write : ∀ (dst : Operand) (v : Word), (resolveWrite s dst v).map State.advance = .error c →
      c ≠ .pcOutOfProgram := by
    intro dst v hw
    cases hu : resolveWrite s dst v with
    | error d => rw [hu] at hw; cases hw; exact resolveWrite_error_ne_pcOutOfProgram hu
    | ok u => rw [hu] at hw; cases hw
  cases i with
  | mov src dst => exact write dst _ (effect_mov src dst s a b ▸ h)
  | add src dst => exact write dst _ (effect_add src dst s a b ▸ h)
  | placeholder | cmp | jlo | jmp | nop => cases h
  | dec | jnz | reserved0 | reserved8 | reserved9 | reserved10 | reserved11 | reserved12 | reserved13 | reserved14 =>
    cases h; decide

/-- An instruction takes its effect, or a fault that is not the fetch's. -/
theorem exec_effect_or_fault {i : Instr} {s t : State} (h : exec i s = .next t) :
    (∃ a b, effect i s a b = .ok t) ∨ ∃ c, c ≠ .pcOutOfProgram ∧ t = s.takeFault c (some (encode i)) := by
  cases ho : i.operands with
  | none =>
    cases eq_placeholder_of_operands ho
    cases h
    exact .inl ⟨0#16, 0#16, rfl⟩
  | some p =>
    obtain ⟨src, dst⟩ := p
    rcases resolves_or_fault s src dst with hr | ⟨c, hc⟩
    · rw [exec_of_resolves ho hr] at h
      rcases commit_cases h with he | ⟨c, he, ht⟩
      · exact .inl ⟨_, _, he⟩
      · exact .inr ⟨c, effect_error_ne_pcOutOfProgram he, ht⟩
    · rw [exec_of_operandFault ho hc] at h
      cases h
      refine .inr ⟨c, ?_, rfl⟩
      rintro rfl
      rcases Option.or_eq_some_iff.1 hc with hs | ⟨-, hd⟩
      · exact operandFault_ne_pcOutOfProgram s src hs
      · exact operandFault_ne_pcOutOfProgram s dst hd

/-! ## A step as one of eight transitions (40_step_and_operands.md R91-R103) -/

/-- What one STEP can make of the state `s`, with what is known in each case of the word it fetched. -/
inductive Transition (s : State) : State → Prop where
  /-- A stopped core stays as it is (R91). -/
  | stay (hs : s.status ≠ .ready) : Transition s s
  /-- The fetch is outside the program (R92). -/
  | fetchFault (hs : s.status = .ready) : Transition s (s.takeFault .pcOutOfProgram none)
  /-- The fetched instruction faults (R103). -/
  | instrFault (c : Fault) (w : Word) (hs : s.status = .ready) (hc : c ≠ .pcOutOfProgram) :
      Transition s (s.takeFault c (some w))
  /-- The placeholder, or JLO not taken (R94, R115). -/
  | advance (hs : s.status = .ready) (hp : s.pcInProgram) : Transition s s.advance
  /-- JMP, or JLO taken (R115, R116). -/
  | jump (f : OpField) (hs : s.status = .ready) : Transition s (s.jumpTo f)
  /-- CMP (R111). -/
  | compare (b : Bool) (hs : s.status = .ready) (hp : s.pcInProgram) (hop : opcodeOf (s.mem.read s.pc) = 2#4) :
      Transition s (s.setFlag b).advance
  /-- NOP (R120). -/
  | halt (hs : s.status = .ready) (hp : s.pcInProgram) : Transition s s.advance.halt
  /-- MOV and ADD (R110, R112). -/
  | write (v : Word) (u : State) (hs : s.status = .ready) (hp : s.pcInProgram)
      (hop : opcodeOf (s.mem.read s.pc) = 1#4 ∨ opcodeOf (s.mem.read s.pc) = 3#4)
      (hw : resolveWrite s (dstOf (s.mem.read s.pc)) v = .ok u) : Transition s u.advance

/-- Every step is one of the eight transitions. -/
theorem step_transition {s t : State} (h : step s = .next t) : Transition s t := by
  rcases step_cases h with ⟨hs, rfl⟩ | ⟨hs, -, rfl⟩ | ⟨hs, hp, hx⟩
  · exact .stay hs
  · exact .fetchFault hs
  rcases exec_effect_or_fault hx with ⟨a, b, he⟩ | ⟨c, hc, rfl⟩
  swap
  · exact .instrFault c _ hs hc
  have hop := decodeWord_opcode (s.mem.read s.pc)
  rcases effect_cases he with rfl | ⟨f, rfl⟩ | ⟨src, dst, hi, rfl⟩ | ⟨-, -, -, rfl⟩ | ⟨src, dst, v, u, hi, hw, rfl⟩
  · exact .advance hs hp
  · exact .jump f hs
  · rw [hi] at hop
    exact .compare _ hs hp hop.symm
  · exact .halt hs hp
  · have hdst : dst = dstOf (s.mem.read s.pc) := by
      apply (decodeWord_operands (src := src) _).2
      rcases hi with hi | hi <;> rw [hi] <;> rfl
    subst hdst
    refine .write v u hs hp ?_ hw
    rcases hi with hi | hi <;> rw [hi] at hop
    · exact .inl hop.symm
    · exact .inr hop.symm

/-! ## What an operand write and a step keep -/

/-- An operand write keeps the pc, the flag and the control part of the state (R99). -/
theorem resolveWrite_control {s t : State} {o : Operand} {v : Word} (h : resolveWrite s o v = .ok t) :
    t.pc = s.pc ∧ t.flag = s.flag ∧ SameControl s t := by
  rcases resolveWrite_cases h with ⟨-, rfl⟩ | ⟨-, -, rfl⟩ <;> exact ⟨rfl, rfl, rfl, rfl, rfl, rfl, rfl⟩

/-- An operand write keeps the memory canonical and within CAPACITY. -/
theorem resolveWrite_mem_legal {s t : State} {o : Operand} {v : Word} (hwf : s.mem.wf = true)
    (hin : s.mem.within s.capacity = true) (h : resolveWrite s o v = .ok t) :
    t.mem.wf = true ∧ t.mem.within s.capacity = true := by
  rcases resolveWrite_cases h with ⟨-, rfl⟩ | ⟨-, ha, rfl⟩
  · exact ⟨hwf, hin⟩
  · exact ⟨Memory.wf_write hwf _ v, Memory.within_write hin ha v⟩

/-- A step keeps `plen`, CAPACITY and OFFSET (10_state.md R32, R33). -/
theorem step_keeps_program_region {s t : State} (h : step s = .next t) :
    t.plen = s.plen ∧ t.capacity = s.capacity ∧ t.offset = s.offset := by
  cases step_transition h with
  | write v u _ _ _ hw =>
    obtain ⟨-, -, hplen, -, -, hcap, hoff⟩ := resolveWrite_control hw
    exact ⟨hplen, hcap, hoff⟩
  | _ => exact ⟨rfl, rfl, rfl⟩

/-- A step leaves the registers and the memory as they are, or makes one write through the destination operand of a word
of opcode MOV or ADD (R22, R50, R99). -/
theorem step_storage {s t : State} (h : step s = .next t) :
    (t.regs = s.regs ∧ t.mem = s.mem) ∨
    ∃ v u, (opcodeOf (s.mem.read s.pc) = 1#4 ∨ opcodeOf (s.mem.read s.pc) = 3#4) ∧
      resolveWrite s (dstOf (s.mem.read s.pc)) v = .ok u ∧ t.regs = u.regs ∧ t.mem = u.mem := by
  cases step_transition h with
  | write v u _ _ hop hw => exact .inr ⟨v, u, hop, hw, rfl, rfl⟩
  | _ => exact .inl ⟨rfl, rfl⟩

/-- Only a CMP word's step changes the flag (R28). -/
theorem step_flag {s t : State} (h : step s = .next t) :
    t.flag = s.flag ∨ opcodeOf (s.mem.read s.pc) = 2#4 := by
  cases step_transition h with
  | compare _ _ _ hop => exact .inr hop
  | write v u _ _ _ hw =>
    obtain ⟨-, hflag, -⟩ := resolveWrite_control hw
    exact .inl hflag
  | _ => exact .inl rfl

/-- A step stays, advances from inside the program, or jumps to one of the 16 cells from OFFSET on (R26, R102). -/
theorem step_pc {s t : State} (h : step s = .next t) :
    t.pc = s.pc ∨ (s.pcInProgram ∧ t.pc = s.pc + 1) ∨ ∃ f : OpField, t.pc = s.offset + f.toNat := by
  cases step_transition h with
  | stay | fetchFault | instrFault => exact .inl rfl
  | jump f => exact .inr (.inr ⟨f, rfl⟩)
  | advance _ hp | compare _ _ hp | halt _ hp => exact .inr (.inl ⟨hp, rfl⟩)
  | write v u _ hp _ hw =>
    obtain ⟨hpc, -, -⟩ := resolveWrite_control hw
    exact .inr (.inl ⟨hp, by rw [State.advance_pc, hpc]⟩)

/-! ## The latch and the fault record (10_state.md R34, 60_exceptions.md R132) -/

theorem latchAgrees_of_ready {s : State} (hs : s.status = .ready) : s.latchAgrees = true ↔ s.record = none := by
  unfold State.latchAgrees
  rw [hs]
  cases s.record <;> simp

theorem latchAgrees_of_halted {s : State} (hs : s.status = .halted) : s.latchAgrees = true ↔ s.record = none := by
  unfold State.latchAgrees
  rw [hs]
  cases s.record <;> simp

/-- A fault taken leaves latch and record in agreement, when a word is recorded for every cause but PcOutOfProgram. -/
theorem latchAgrees_takeFault (s : State) (c : Fault) (w : Option Word) :
    (s.takeFault c w).latchAgrees = true ↔ (w = none ↔ c = .pcOutOfProgram) := by
  unfold State.latchAgrees
  cases w <;> simp

/-- A step keeps the latch and the record in agreement. -/
theorem step_keeps_latch {s t : State} (hl : s.latchAgrees = true) (h : step s = .next t) : t.latchAgrees = true := by
  have running : s.status = .ready → t.status = .ready → t.record = s.record → t.latchAgrees = true :=
    fun hs ht hr => (latchAgrees_of_ready ht).2 (hr.trans ((latchAgrees_of_ready hs).1 hl))
  cases step_transition h with
  | stay => exact hl
  | fetchFault => exact (latchAgrees_takeFault s _ _).2 (by simp)
  | instrFault c w _ hc => exact (latchAgrees_takeFault s c _).2 (by simp [hc])
  | halt hs => exact (latchAgrees_of_halted rfl).2 ((latchAgrees_of_ready hs).1 hl)
  | advance hs | jump _ hs | compare _ hs => exact running hs hs rfl
  | write v u hs _ _ hw =>
    obtain ⟨-, -, -, hstatus, hrecord, -⟩ := resolveWrite_control hw
    exact running hs (hstatus.trans hs) hrecord

/-! ## The invariant -/

/-- A step keeps the memory canonical and within CAPACITY. -/
theorem step_keeps_mem_legal {s t : State} (hs : s.Inv) (h : step s = .next t) :
    t.mem.wf = true ∧ t.mem.within s.capacity = true := by
  rcases step_storage h with ⟨-, hm⟩ | ⟨v, u, -, hw, -, hm⟩ <;> rw [hm]
  · exact ⟨hs.memCanonical, hs.memWithin⟩
  · exact resolveWrite_mem_legal hs.memCanonical hs.memWithin hw

/-- A step keeps the pc in the range of R24 and R26: advancing past the last program word reaches CAPACITY at most, and
a jump OFFSET + 15. -/
theorem step_keeps_pc_range {s t : State} (hs : s.Inv) (h : step s = .next t) :
    s.offset ≤ t.pc ∧ t.pc ≤ max s.capacity (s.offset + 16) := by
  have hlo := hs.offsetLePc
  have hhi := hs.pcLe
  have hoff := hs.offsetLe
  have hplen := hs.plenLe
  rcases step_pc h with hpc | ⟨hp, hpc⟩ | ⟨f, hpc⟩ <;> rw [hpc]
  · exact ⟨hlo, hhi⟩
  · omega
  · have hf := f.isLt
    omega

/-- Settles O47: the memory, the pc and the latch by a lemma each, the rest because a step keeps it. -/
theorem stepKeepsTheInvariant : Obligations.StepKeepsTheInvariant := by
  intro s t hs h
  obtain ⟨hplen, hcap, hoff⟩ := step_keeps_program_region h
  obtain ⟨hwf, hin⟩ := step_keeps_mem_legal hs h
  obtain ⟨hlo, hhi⟩ := step_keeps_pc_range hs h
  exact {
    memCanonical := hwf
    memWithin := by rw [hcap]; exact hin
    capacityPos := by rw [hcap]; exact hs.capacityPos
    offsetLe := by rw [hcap, hoff]; exact hs.offsetLe
    plenLe := by rw [hplen, hcap, hoff]; exact hs.plenLe
    offsetLePc := by rw [hoff]; exact hlo
    pcLe := by rw [hcap, hoff]; exact hhi
    latch := step_keeps_latch hs.latch h }

/-! ## The frame of a step -/

/-- An operand write changes no register but the one its field names, no cell but the one at that register's value, the
registers only in mode REGISTER and the memory only in mode INDIRECT (R99). -/
theorem resolveWrite_frame {s t : State} {o : Operand} {v : Word} (h : resolveWrite s o v = .ok t) :
    (∀ f, f ≠ o.field → t.reg f = s.reg f) ∧ (∀ a, a ≠ (s.reg o.field).toNat → t.mem.read a = s.mem.read a) ∧
      (o.mode ≠ .register → t.regs = s.regs) ∧ (o.mode ≠ .indirect → t.mem = s.mem) := by
  rcases resolveWrite_cases h with ⟨hm, rfl⟩ | ⟨hm, -, rfl⟩
  · refine ⟨fun f hf => ?_, fun _ _ => rfl, fun hr => absurd hm hr, fun _ => rfl⟩
    rw [State.reg_setReg, if_neg hf]
  · exact ⟨fun _ _ => rfl, fun a ha => Memory.read_write_of_ne v ha, fun _ => rfl, fun hi => absurd hm hi⟩

/-- Settles O17: a step stores nothing, or makes the one operand write whose frame is known. -/
theorem stepWritesOnlyTheDestination : Obligations.StepWritesOnlyTheDestination := by
  intro s t h
  rcases step_storage h with ⟨hr, hm⟩ | ⟨v, u, hop, hw, hr, hm⟩
  · exact ⟨fun f _ => State.reg_congr hr f, fun a _ => by rw [hm], fun _ => hr, fun _ => hm, fun _ _ => ⟨hr, hm⟩⟩
  · obtain ⟨hreg, hcell, hregs, hmem⟩ := resolveWrite_frame hw
    refine ⟨fun f hf => (State.reg_congr hr f).trans (hreg f hf), fun a ha => ?_, fun hmode => hr.trans (hregs hmode),
      fun hmode => hm.trans (hmem hmode), fun hmov hadd => absurd hop (not_or.2 ⟨hmov, hadd⟩)⟩
    rw [hm]
    exact hcell a ha

/-! ## Executing from two states that differ in the flag (10_state.md R28) -/

theorem memWrite_setFlag (s : State) (b : Bool) (a : Nat) (v : Word) :
    memWrite (s.setFlag b) a v = (memWrite s a v).map (·.setFlag b) := by
  by_cases ha : s.capacity ≤ a
  · rw [memWrite_of_le v ha, memWrite_of_le (s := s.setFlag b) v ha]
    rfl
  · rw [memWrite_of_lt v (not_le.1 ha), memWrite_of_lt (s := s.setFlag b) v (not_le.1 ha)]
    rfl

/-- An operand write neither reads nor writes the flag. -/
theorem resolveWrite_setFlag (s : State) (b : Bool) (o : Operand) (v : Word) :
    resolveWrite (s.setFlag b) o v = (resolveWrite s o v).map (·.setFlag b) := by
  obtain ⟨m, f⟩ := o
  cases m with
  | indirect => exact memWrite_setFlag s b _ v
  | register | immediate | invalid => rfl

/-- The effect of every instruction but JLO is the same from two states that differ in the flag, but for the flag. -/
theorem effect_setFlag {i : Instr} (hi : ∀ src dst, i ≠ .jlo src dst) (s : State) (b c : Bool) (x y : Word) :
    (effect i (s.setFlag b) x y).map (·.setFlag c) = (effect i s x y).map (·.setFlag c) := by
  have write : ∀ (dst : Operand) (v : Word),
      ((resolveWrite (s.setFlag b) dst v).map State.advance).map (·.setFlag c) =
        ((resolveWrite s dst v).map State.advance).map (·.setFlag c) := by
    intro dst v
    rw [resolveWrite_setFlag]
    cases resolveWrite s dst v <;> rfl
  cases i with
  | mov src dst => rw [effect_mov, effect_mov]; exact write dst x
  | add src dst => rw [effect_add, effect_add]; exact write dst _
  | jlo src dst => exact absurd rfl (hi src dst)
  | _ => rfl

/-- Results that agree but for the flag commit to states that agree but for the flag. -/
theorem commit_setFlag {i : Instr} {s t t' : State} {b c : Bool} {r r' : Except Fault State}
    (hr : r'.map (·.setFlag c) = r.map (·.setFlag c)) (h : commit i s r = .next t)
    (h' : commit i (s.setFlag b) r' = .next t') : t'.setFlag c = t.setFlag c := by
  cases r with
  | ok u =>
    cases r' with
    | ok u' => cases h; cases h'; exact Except.ok.inj hr
    | error d' => cases hr
  | error d =>
    cases r' with
    | ok u' => cases hr
    | error d' => cases hr; cases h; cases h'; rfl

/-- Every instruction but JLO leads from two states that differ in the flag to two that differ in it at most. -/
theorem exec_setFlag {i : Instr} (hi : ∀ src dst, i ≠ .jlo src dst) {s t t' : State} {b : Bool} (c : Bool)
    (h : exec i s = .next t) (h' : exec i (s.setFlag b) = .next t') : t'.setFlag c = t.setFlag c := by
  cases ho : i.operands with
  | none =>
    cases eq_placeholder_of_operands ho
    cases h
    cases h'
    rfl
  | some p =>
    obtain ⟨src, dst⟩ := p
    rcases resolves_or_fault s src dst with hr | ⟨d, hd⟩
    · have hr' : (s.setFlag b).Resolves src dst := hr
      rw [exec_of_resolves ho hr] at h
      rw [exec_of_resolves ho hr'] at h'
      exact commit_setFlag (effect_setFlag hi s b c _ _) h h'
    · have hd' : ((s.setFlag b).operandFault src).or ((s.setFlag b).operandFault dst) = some d := hd
      rw [exec_of_operandFault ho hd] at h
      rw [exec_of_operandFault ho hd'] at h'
      cases h
      cases h'
      rfl

/-- Settles O35: the flag after a step, and the two executions side by side; CMP overwrites the flag whatever it was. -/
theorem onlyCmpWritesAndOnlyJloReadsTheFlag : Obligations.OnlyCmpWritesAndOnlyJloReadsTheFlag := by
  refine ⟨fun s t h hne => (step_flag h).resolve_left hne, fun i s b hi => ?_, fun src dst s b hr => ?_⟩
  · obtain ⟨t, h⟩ := exec_next i s
    obtain ⟨t', h'⟩ := exec_next i (s.setFlag b)
    exact ⟨t, t', h, h', exec_setFlag hi t.flag h h'⟩
  · have hr' : (s.setFlag b).Resolves src dst := hr
    exact (exec_of_resolves (i := .cmp src dst) rfl hr').trans (exec_of_resolves (i := .cmp src dst) rfl hr).symm

/-! ## The host's operations (70_reset_and_hazards.md R157) -/

/-- STEP always answers a next state (log entry 5). -/
theorem step_next (s : State) : ∃ t, step s = .next t := by
  unfold step
  cases fetch s with
  | stopped => exact ⟨_, rfl⟩
  | trap cause word => exact ⟨_, rfl⟩
  | run i => exact exec_next i s

theorem hostApply_hostWrite_done {s t : State} {a v : Nat} (h : s.hostWrite a v = some t) :
    hostApply (.hostWrite a v) s = (t, .ok) := by
  simp only [hostApply, h]

theorem hostApply_hostWrite_refused {s : State} {a v : Nat} (h : s.hostWrite a v = none) :
    hostApply (.hostWrite a v) s = (s, .writeRefused) := by
  simp only [hostApply, h]

theorem hostApply_load_done {s t : State} {words : List Nat} (h : s.loadProgram words = .ok t) :
    hostApply (.load words) s = (t, .ok) := by
  simp only [hostApply, h]

theorem hostApply_load_refused {s : State} {words : List Nat} {e : LoadError} (h : s.loadProgram words = .error e) :
    hostApply (.load words) s = (s, .loadRefused e) := by
  simp only [hostApply, h]

theorem hostApply_step {s t : State} (h : step s = .next t) : hostApply .step s = (t, .outcome t.outcome) := by
  simp only [hostApply, h]

theorem hostApply_snapshot (s : State) : hostApply .snapshot s = (s, .snapshot s.snapshot) := rfl

/-- The state after an operation of the host: at most the memory differs, or an accepted LOAD started a run, or the core
stepped. -/
theorem hostApply_cases (op : HostOp) (s : State) :
    (∃ m, (hostApply op s).1 = { s with mem := m }) ∨
    (∃ words, op = .load words ∧ (hostApply op s).1 = s.startRun words) ∨
    step s = .next (hostApply op s).1 := by
  cases op with
  | hostWrite a v =>
    cases h : s.hostWrite a v with
    | none => exact .inl ⟨s.mem, by rw [hostApply_hostWrite_refused h]⟩
    | some t =>
      rw [hostApply_hostWrite_done h]
      obtain ⟨-, -, rfl⟩ := hostWrite_cases h
      exact .inl ⟨_, rfl⟩
  | load words =>
    cases h : s.loadProgram words with
    | error e => exact .inl ⟨s.mem, by rw [hostApply_load_refused h]⟩
    | ok t =>
      rw [hostApply_load_done h]
      obtain ⟨-, -, rfl⟩ := loadProgram_cases h
      exact .inr (.inl ⟨words, rfl, rfl⟩)
  | step =>
    obtain ⟨t, h⟩ := step_next s
    exact .inr (.inr (by rw [hostApply_step h]; exact h))
  | snapshot => exact .inl ⟨s.mem, by rw [hostApply_snapshot]⟩

/-- A LOAD whose reply is that it was done was accepted. -/
theorem loadProgram_of_hostApply_ok {s t : State} {words : List Nat} (h : hostApply (.load words) s = (t, .ok)) :
    s.loadProgram words = .ok t := by
  cases hl : s.loadProgram words with
  | error e => cases (hostApply_load_refused hl).symm.trans h
  | ok u => cases (hostApply_load_done hl).symm.trans h; rfl

/-- Settles O38: construction, and then each way an operation of the host can change the state. -/
theorem capacityAndOffsetAreFixedAtConstruction : Obligations.CapacityAndOffsetAreFixedAtConstruction := by
  refine ⟨fun capacity offset s h => ?_, fun op s => ?_⟩
  · obtain ⟨hpos, hle, rfl⟩ := construct_cases h
    exact ⟨rfl, rfl, hpos, hle⟩
  · rcases hostApply_cases op s with ⟨m, h⟩ | ⟨words, -, h⟩ | h
    · rw [h]; exact ⟨rfl, rfl⟩
    · rw [h]; exact ⟨rfl, rfl⟩
    · obtain ⟨-, hcap, hoff⟩ := step_keeps_program_region h
      exact ⟨hcap, hoff⟩

/-- Settles O39: of the ways an operation of the host can change the state, only an accepted LOAD writes `plen`. -/
theorem onlyLoadWritesTheProgramLength : Obligations.OnlyLoadWritesTheProgramLength := by
  refine ⟨fun op s hop => ?_, fun words s t h => ?_⟩
  · rcases hostApply_cases op s with ⟨m, h⟩ | ⟨words, hload, -⟩ | h
    · rw [h]
    · exact absurd hload (hop words)
    · obtain ⟨hplen, -, -⟩ := step_keeps_program_region h
      exact hplen
  · obtain ⟨-, -, rfl⟩ := loadProgram_cases (loadProgram_of_hostApply_ok h)
    exact State.startRun_plen s words

/-! ## The snapshot (10_state.md R37) -/

/-- Entry `f` of the snapshot's register list is `x[f]`. -/
theorem snapshot_x_getElem? (s : State) (f : OpField) : s.snapshot.x[f.toNat]? = some (s.reg f) := by
  have hf : f.toNat < s.regs.toList.length := by rw [Vector.length_toList]; exact f.isLt
  calc s.snapshot.x[f.toNat]? = s.regs.toList[f.toNat]? := rfl
    _ = some (s.regs.toList[f.toNat]) := List.getElem?_eq_getElem hf
    _ = some (s.reg f) := by rw [Vector.getElem_toList]; rfl

/-- Entry `a` of the snapshot's cell list is cell `a`, for every cell there is. -/
theorem snapshot_cells_getElem? {s : State} {a : Nat} (ha : a < s.capacity) :
    s.snapshot.cells[a]? = some (s.mem.read a) := by
  simp [State.snapshot, ha]

/-- Settles O45: the two lists entry by entry, and their lengths. -/
theorem snapshotShowsEveryRegisterAndCell : Obligations.SnapshotShowsEveryRegisterAndCell := by
  intro s
  have hx : s.snapshot.x.length = 16 := Vector.length_toList
  have hcells : s.snapshot.cells.length = s.capacity := by simp [State.snapshot]
  exact ⟨hx, snapshot_x_getElem? s, hcells, fun a ha => snapshot_cells_getElem? ha⟩

end Sys2Proof.Machine

/-! PROOFS. The family of 20_memory.md: the checked access to a cell, the canonical form as the meaning of a memory, and
a program that stores into itself. -/

namespace Sys2Proof.Machine

/-! ## Access to a cell (20_memory.md R45, R46) -/

/-- Settles O36: the two primitives on both sides of CAPACITY, and read after write. -/
theorem memoryAccessIsCheckedAgainstCapacity : Obligations.MemoryAccessIsCheckedAgainstCapacity := by
  intro s a v hwf
  exact ⟨fun hle => ⟨memRead_of_le hle, memWrite_of_le v hle⟩, fun hlt =>
    ⟨memRead_of_lt hlt, s.mem.write a v, memWrite_of_lt v hlt, fun b => Memory.read_write hwf a b v⟩⟩

/-! ## A canonical memory is determined by its reads (R40, R47; log entries 1 and 2) -/

theorem Memory.read_head (a : Nat) (v : Word) (m : Memory) : Memory.read ((a, v) :: m) a = v := by
  rw [Memory.read_cons, if_pos rfl]

/-- The first cell a canonical memory lists is not 0, so a memory that reads like it lists a cell there or below. -/
theorem Memory.not_above_of_read_eq {a : Nat} {v : Word} {m m' : Memory} (hw : Memory.wf ((a, v) :: m) = true)
    (hw' : m'.wf = true) (h : ∀ c, Memory.read ((a, v) :: m) c = m'.read c) : ¬Memory.above a m' = true := by
  obtain ⟨hv, -, -⟩ := Memory.wf_cons.1 hw
  intro ha
  apply hv
  calc v = Memory.read ((a, v) :: m) a := (Memory.read_head a v m).symm
    _ = m'.read a := h a
    _ = 0#16 := Memory.read_of_above hw' ha le_rfl

/-- Canonical memories that read alike and begin at the same cell read alike after it. -/
theorem Memory.read_tail_eq {a : Nat} {v u : Word} {m m' : Memory} (hw : Memory.wf ((a, v) :: m) = true)
    (hw' : Memory.wf ((a, u) :: m') = true)
    (h : ∀ c, Memory.read ((a, v) :: m) c = Memory.read ((a, u) :: m') c) (c : Nat) : m.read c = m'.read c := by
  obtain ⟨-, hm, hmw⟩ := Memory.wf_cons.1 hw
  obtain ⟨-, hm', hmw'⟩ := Memory.wf_cons.1 hw'
  by_cases hc : c = a
  · rw [Memory.read_of_above hmw hm hc.le, Memory.read_of_above hmw' hm' hc.le]
  · have hcell := h c
    rwa [Memory.read_cons, Memory.read_cons, if_neg hc, if_neg hc] at hcell

/-- Settles O37, by induction on the list: both begin at the lowest cell that is not 0, and their tails read alike. -/
theorem canonicalMemoriesThatReadAlikeAreEqual : Obligations.CanonicalMemoriesThatReadAlikeAreEqual := by
  intro m
  induction m with
  | nil =>
    intro m' _ hw' h
    cases m' with
    | nil => rfl
    | cons e m' => exact absurd rfl (Memory.not_above_of_read_eq hw' rfl fun c => (h c).symm)
  | cons d m ih =>
    intro m' hw hw' h
    obtain ⟨a, v⟩ := d
    cases m' with
    | nil => exact absurd rfl (Memory.not_above_of_read_eq hw rfl h)
    | cons e m' =>
      obtain ⟨b, u⟩ := e
      have hba : ¬a < b := mt Memory.above_cons.2 (Memory.not_above_of_read_eq hw hw' h)
      have hab : ¬b < a := mt Memory.above_cons.2 (Memory.not_above_of_read_eq hw' hw fun c => (h c).symm)
      obtain rfl : a = b := by omega
      have hvu : v = u := by simpa only [Memory.read_head] using h a
      obtain ⟨-, -, hmw⟩ := Memory.wf_cons.1 hw
      obtain ⟨-, -, hmw'⟩ := Memory.wf_cons.1 hw'
      rw [hvu, ih m' hmw hmw' (Memory.read_tail_eq hw hw' h)]

/-! ## The instructions that store into a cell (R56, 70_reset_and_hazards.md R162) -/

/-- The state after an instruction that stores `v` into cell `a`: the one write, and the pc one further. -/
def State.storeAndAdvance (s : State) (a : Nat) (v : Word) : State := ({ s with mem := s.mem.write a v } : State).advance

@[simp] theorem State.storeAndAdvance_mem (s : State) (a : Nat) (v : Word) :
    (s.storeAndAdvance a v).mem = s.mem.write a v := rfl
@[simp] theorem State.storeAndAdvance_pc (s : State) (a : Nat) (v : Word) :
    (s.storeAndAdvance a v).pc = s.pc + 1 := rfl

/-- ADD's sum is the sum of words (R112). -/
theorem wrappingSum_eq_add (d v : Word) : wrappingSum d v = d + v := by
  apply BitVec.eq_of_toNat_eq
  rw [wrappingSum_toNat, BitVec.toNat_add]

/-- An INDIRECT destination that resolves is written at the address its register holds. -/
theorem resolveWrite_indirect {s : State} {dst : Operand} (v : Word) (hf : s.operandFault dst = none)
    (hm : dst.mode = .indirect) :
    resolveWrite s dst v = .ok { s with mem := s.mem.write (s.reg dst.field).toNat v } := by
  obtain ⟨t, ht⟩ := resolveWrite_ok v hf (by rw [hm]; decide)
  rcases resolveWrite_cases ht with ⟨hreg, -⟩ | ⟨-, -, rfl⟩
  · rw [hm] at hreg; cases hreg
  · exact ht

theorem exec_mov_indirect {s : State} {src dst : Operand} (hr : s.Resolves src dst) (hm : dst.mode = .indirect) :
    exec (.mov src dst) s = .next (s.storeAndAdvance (s.reg dst.field).toNat (s.operandValue src)) := by
  rw [exec_of_resolves (i := .mov src dst) rfl hr, effect_mov, resolveWrite_indirect _ hr.2 hm]
  rfl

theorem exec_add_indirect {s : State} {src dst : Operand} (hr : s.Resolves src dst) (hm : dst.mode = .indirect) :
    exec (.add src dst) s =
      .next (s.storeAndAdvance (s.reg dst.field).toNat (s.operandValue dst + s.operandValue src)) := by
  rw [exec_of_resolves (i := .add src dst) rfl hr, effect_add, wrappingSum_eq_add, resolveWrite_indirect _ hr.2 hm]
  rfl

/-- The step of a READY core in its program is that of the instruction its cell decodes to. -/
theorem step_of_decode {s : State} {i : Instr} (hs : s.status = .ready) (hp : s.pcInProgram)
    (hd : decode (s.mem.read s.pc).toNat = .ok i) : step s = exec i s := by
  rw [step_of_pcInProgram hs hp, Except.ok.inj ((decode_toNat _).symm.trans hd)]

/-- The store leaves the next fetch in the program when the program has a cell after this one. -/
theorem storeAndAdvance_pcInProgram {s : State} (hlo : s.offset ≤ s.pc) (hnext : s.pc + 1 < s.offset + s.plen) (a : Nat)
    (v : Word) : (s.storeAndAdvance a v).pcInProgram :=
  ⟨Nat.le_succ_of_le hlo, hnext⟩

/-- Settles O26: the step is one store and an advance, whichever of the two instructions makes it; the rest is read after
write, at the stored cell and beside it. -/
theorem storedWordIsTheNextOneFetched : Obligations.StoredWordIsTheNextOneFetched := by
  intro s src dst v hinv hs hnext hi hr hm
  have hp : s.pcInProgram := ⟨hinv.offsetLePc, by omega⟩
  have hstep : step s = .next (s.storeAndAdvance (s.reg dst.field).toNat v) := by
    rcases hi with ⟨hd, rfl⟩ | ⟨hd, rfl⟩
    · rw [step_of_decode hs hp hd, exec_mov_indirect hr hm]
    · rw [step_of_decode hs hp hd, exec_add_indirect hr hm]
  refine ⟨fun ha => ?_, fun ha => ?_⟩ <;> rw [ha] at hstep
  · have hread : (s.mem.write (s.pc + 1) v).read (s.pc + 1) = v := Memory.read_write_self hinv.memCanonical _ v
    have hfetch := step_of_pcInProgram (s := s.storeAndAdvance (s.pc + 1) v) hs
      (storeAndAdvance_pcInProgram hinv.offsetLePc hnext _ v)
    rw [State.storeAndAdvance_mem, State.storeAndAdvance_pc, hread] at hfetch
    exact ⟨_, hstep, rfl, hread, hfetch⟩
  · exact ⟨_, hstep, rfl, hs, Memory.read_write_self hinv.memCanonical _ v,
      Memory.read_write_of_ne v (Nat.succ_ne_self s.pc)⟩

end Sys2Proof.Machine

/-! PROOFS. The family of 30_encoding.md: the fields of a word, decoding against encoding, and the toolchain's
assembler. -/

namespace Sys2Proof

/-! ## The slices of a word (30_encoding.md R62) -/

theorem srcOf_tag_toNat (w : InstrWord) : (srcOf w).mode.tag.toNat = w.toNat / 2 ^ 10 % 4 := by
  unfold srcOf
  rw [AddrMode.tag_ofTag, BitVec.extractLsb'_toNat, Nat.shiftRight_eq_div_pow]

theorem dstOf_tag_toNat (w : InstrWord) : (dstOf w).mode.tag.toNat = w.toNat / 2 ^ 4 % 4 := by
  unfold dstOf
  rw [AddrMode.tag_ofTag, BitVec.extractLsb'_toNat, Nat.shiftRight_eq_div_pow]

/-- An operand is its tag and its field. -/
theorem Operand.eq_of_toNat_eq {o p : Operand} (htag : o.mode.tag.toNat = p.mode.tag.toNat)
    (hfield : o.field.toNat = p.field.toNat) : o = p := by
  obtain ⟨m, f⟩ := o
  obtain ⟨n, g⟩ := p
  have hmode : m = n := by
    rw [← AddrMode.ofTag_tag m, ← AddrMode.ofTag_tag n, BitVec.eq_of_toNat_eq htag]
  have hbits : f = g := BitVec.eq_of_toNat_eq hfield
  rw [hmode, hbits]

/-- The slices of the word 0 are an absent operand (R67). -/
theorem srcOf_zero : srcOf 0#16 = Operand.absent := by decide

theorem dstOf_zero : dstOf 0#16 = Operand.absent := by decide

/-! ## The slices of a packed word (R61, R62) -/

/-- A packed word as the sum of its five fields, each at its weight. -/
theorem packWord_toNat_fields (op : Opcode) (src dst : Operand) :
    (packWord op src dst).toNat = op.toNat * 2 ^ 12 + src.mode.tag.toNat * 2 ^ 10 + src.field.toNat * 2 ^ 6 +
      dst.mode.tag.toNat * 2 ^ 4 + dst.field.toNat := by
  rw [packWord_toNat, Operand.bits_toNat, Operand.bits_toNat]
  ring

theorem srcOf_packWord (op : Opcode) (src dst : Operand) : srcOf (packWord op src dst) = src := by
  have hsm := src.mode.tag.isLt
  have hsf := src.field.isLt
  have hdm := dst.mode.tag.isLt
  have hdf := dst.field.isLt
  apply Operand.eq_of_toNat_eq
  · rw [srcOf_tag_toNat, packWord_toNat_fields]
    omega
  · rw [srcOf_field_toNat, packWord_toNat_fields]
    omega

theorem dstOf_packWord (op : Opcode) (src dst : Operand) : dstOf (packWord op src dst) = dst := by
  have hdm := dst.mode.tag.isLt
  have hdf := dst.field.isLt
  apply Operand.eq_of_toNat_eq
  · rw [dstOf_tag_toNat, packWord_toNat_fields]
    omega
  · rw [dstOf_field_toNat, packWord_toNat_fields]
    omega

/-! ## The encoder is the formula (R61) -/

theorem encode_of_operands {i : Instr} {src dst : Operand} (h : i.operands = some (src, dst)) :
    encode i = packWord i.opcode src dst := by
  unfold encode
  rw [h]

/-- Two fields side by side: on a lower field that fits, the shift and the or are a sum. -/
theorem shiftLeft_or_eq {a b n : Nat} (h : b < 2 ^ n) : a <<< n ||| b = a * 2 ^ n + b := by
  rw [← Nat.shiftLeft_add_eq_or_of_lt h, Nat.shiftLeft_eq]

/-- The formula on fields that fit; the opcode stands on top, so its own bound is not needed. -/
theorem encodeFormula_eq {sm sf dm df : Nat} (op : Nat) (hsm : sm < 4) (hsf : sf < 16) (hdm : dm < 4) (hdf : df < 16) :
    encodeFormula op sm sf dm df = op * 2 ^ 12 + sm * 2 ^ 10 + sf * 2 ^ 6 + dm * 2 ^ 4 + df := by
  have hsrc : sm <<< 4 ||| sf = sm * 2 ^ 4 + sf := shiftLeft_or_eq hsf
  have hdst : dm <<< 4 ||| df = dm * 2 ^ 4 + df := shiftLeft_or_eq hdf
  have hlow : (op <<< 6 ||| (sm * 2 ^ 4 + sf)) = op * 2 ^ 6 + (sm * 2 ^ 4 + sf) := shiftLeft_or_eq (by omega)
  have hshift : op <<< 12 = (op <<< 6) <<< 6 := Nat.shiftLeft_add op 6 6
  unfold encodeFormula
  rw [hsrc, hdst, hshift, ← Nat.shiftLeft_or_distrib, hlow, shiftLeft_or_eq (by omega)]
  ring

/-- Settles O3: the formula and the packed word are the same sum of five fields. -/
theorem formulaIsConcatenation : Obligations.FormulaIsConcatenation := by
  refine ⟨fun op sm sf dm df _ hsm hsf hdm hdf => encodeFormula_eq op hsm hsf hdm hdf, fun i src dst h => ?_⟩
  rw [encode_of_operands h, packWord_toNat_fields,
    encodeFormula_eq _ src.mode.tag.isLt src.field.isLt dst.mode.tag.isLt dst.field.isLt]

/-! ## Decoding a word (R62, R68, R69) -/

/-- A nonzero word decodes to an instruction with the operands in its operand fields. -/
theorem decodeWord_operands_of_ne_zero {w : InstrWord} (hw : w ≠ 0#16) :
    (decodeWord w).operands = some (srcOf w, dstOf w) := by
  unfold decodeWord
  split
  case h_1 => rw [if_neg hw]; rfl
  all_goals rfl

/-- Only the whole word 0 is the placeholder (R69). -/
theorem decodeWord_eq_placeholder_iff (w : InstrWord) : decodeWord w = .placeholder ↔ w = 0#16 := by
  constructor
  · intro h
    by_contra hw
    have hops := decodeWord_operands_of_ne_zero hw
    rw [h] at hops
    cases hops
  · rintro rfl
    rfl

/-- The decoder answers the instruction whose opcode and operands a nonzero word holds. -/
theorem decodeWord_eq {w : InstrWord} {i : Instr} (hw : w ≠ 0#16) (hop : opcodeOf w = i.opcode)
    (hargs : i.operands = some (srcOf w, dstOf w)) : decodeWord w = i := by
  unfold decodeWord
  rw [hop]
  cases i with
  | placeholder => cases hargs
  | reserved0 src dst => cases hargs; exact if_neg hw
  | _ => cases hargs; rfl

/-- Settles O4: the opcode and operand fields of the decoded instruction are the word's slices. -/
theorem decodeSplitsTheWordIntoItsFields : Obligations.DecodeSplitsTheWordIntoItsFields := by
  refine ⟨fun w hw => ?_, by decide⟩
  have hop : (decodeWord w).opcode.toNat = w.toNat / 2 ^ 12 := by
    rw [Machine.decodeWord_opcode, opcodeOf_toNat]
  exact ⟨hop, srcOf w, dstOf w, decodeWord_operands_of_ne_zero hw, srcOf_tag_toNat w, srcOf_field_toNat w,
    dstOf_tag_toNat w, dstOf_field_toNat w⟩

/-- Settles O5: a nonzero word has operands, and the placeholder has none. -/
theorem onlyTheZeroWordIsThePlaceholder : Obligations.OnlyTheZeroWordIsThePlaceholder := by
  refine ⟨decodeWord_eq_placeholder_iff, fun w hlt hw => decodeWord_eq hw ?_ rfl, Machine.exec_placeholder⟩
  apply BitVec.eq_of_toNat_eq
  rw [opcodeOf_toNat]
  exact Nat.div_eq_of_lt hlt

/-! ## Decoding undoes encoding (R61, R62) -/

/-- The word of a well-formed instruction with operands is not the placeholder's (R69, R70). -/
theorem encode_ne_zero {i : Instr} {src dst : Operand} (hwf : i.wf = true) (h : i.operands = some (src, dst)) :
    encode i ≠ 0#16 := by
  intro hzero
  rw [encode_of_operands h] at hzero
  have hop : i.opcode = 0#4 := by
    rw [← Laws.opcodeOf_packWord i.opcode src dst, hzero]
    decide
  have hsrc : src = Operand.absent := by rw [← srcOf_packWord i.opcode src dst, hzero, srcOf_zero]
  have hdst : dst = Operand.absent := by rw [← dstOf_packWord i.opcode src dst, hzero, dstOf_zero]
  cases i with
  | placeholder => cases h
  | reserved0 s d =>
    cases h
    rw [hsrc, hdst] at hwf
    exact absurd hwf (by decide)
  | _ => simp [Instr.opcode] at hop

/-- The word of a well-formed instruction decodes to it. -/
theorem decodeWord_encode {i : Instr} (hwf : i.wf = true) : decodeWord (encode i) = i := by
  cases h : i.operands with
  | none =>
    rw [Machine.eq_placeholder_of_operands h]
    rfl
  | some args =>
    obtain ⟨src, dst⟩ := args
    apply decodeWord_eq (encode_ne_zero hwf h)
    · rw [encode_of_operands h, Laws.opcodeOf_packWord]
    · rw [encode_of_operands h, srcOf_packWord, dstOf_packWord, h]

/-- Settles O1: the packed word's slices are the instruction's own fields, and only the placeholder's word is 0. -/
theorem decodeOfEncodeIsTheInstruction : Obligations.DecodeOfEncodeIsTheInstruction := by
  intro i hwf
  rw [Machine.decode_toNat, decodeWord_encode hwf]

/-- Settles O6: ten words of 95_test_vectors.md, each decoded by evaluation. -/
theorem testVectorWordsDecode : Obligations.TestVectorWordsDecode := by
  unfold Obligations.TestVectorWordsDecode
  decide

end Sys2Proof

namespace Sys2Proof.Machine

/-! ## Words that LOAD refuses (R84, 70_reset_and_hazards.md R153) -/

/-- A program that fits the region and holds a value of `2^16` or more is refused by name. -/
theorem loadProgram_wordOutOfRange {s : State} {words : List Nat} (hl : words.length ≤ s.capacity - s.offset)
    {w : Nat} (hmem : w ∈ words) (hw : 2 ^ 16 ≤ w) : s.loadProgram words = .error .wordOutOfRange := by
  unfold State.loadProgram
  rw [if_neg (not_lt.2 hl), if_pos (List.any_eq_true.2 ⟨w, hmem, decide_eq_true hw⟩)]

/-- Settles O53: the overflowing positions evaluated, and the over-wide word refused in every state with room for it. -/
theorem oversizedLabelsCorruptTheWord : Obligations.OversizedLabelsCorruptTheWord := by
  refine ⟨by decide, by decide, by decide, by decide, fun s hs => ?_⟩
  have hroom : [0x15000].length ≤ s.capacity - s.offset := Nat.sub_pos_of_lt hs
  exact loadProgram_wordOutOfRange hroom (List.mem_singleton_self _) (by decide)

end Sys2Proof.Machine

namespace Sys2Proof.Assembler

/-! ## One word for each line that is not blank (30_encoding.md R78) -/

/-- How many words the lines stand for: those that are not blank. -/
def wordCount (lines : List Line) : Nat := (lines.filter fun l => decide (l ≠ .blank)).length

@[simp] theorem wordCount_nil : wordCount [] = 0 := rfl

@[simp] theorem wordCount_blank (rest : List Line) : wordCount (.blank :: rest) = wordCount rest := rfl

@[simp] theorem wordCount_label (name : Text) (rest : List Line) :
    wordCount (.label name :: rest) = wordCount rest + 1 := rfl

@[simp] theorem wordCount_instr (mnemonic operands : Text) (rest : List Line) :
    wordCount (.instr mnemonic operands :: rest) = wordCount rest + 1 := rfl

/-- Assembly that answers found no duplicate label and is pass 2 over pass 1's table. -/
theorem assembleLines_cases {lines : List Line} {ws : List Nat} (h : assembleLines lines = .ok ws) :
    hasDuplicate (labelTable 0 0 lines) = false ∧ emit (labelTable 0 0 lines) lines = .ok ws := by
  unfold assembleLines at h
  split at h
  · cases h
  · exact ⟨Bool.eq_false_iff.2 ‹_›, h⟩

/-- A label line emits the placeholder word 0. -/
theorem emit_label_cases {labels : List (Text × Nat)} {name : Text} {rest : List Line} {ws : List Nat}
    (h : emit labels (.label name :: rest) = .ok ws) : ∃ us, emit labels rest = .ok us ∧ ws = 0 :: us := by
  rw [emit] at h
  cases hrest : emit labels rest with
  | error e => rw [hrest] at h; cases h
  | ok us => rw [hrest] at h; cases h; exact ⟨us, rfl, rfl⟩

/-- An instruction line emits one word. -/
theorem emit_instr_cases {labels : List (Text × Nat)} {mnemonic operands : Text} {rest : List Line} {ws : List Nat}
    (h : emit labels (.instr mnemonic operands :: rest) = .ok ws) :
    ∃ w us, emit labels rest = .ok us ∧ ws = w :: us := by
  rw [emit] at h
  cases hword : instrWord labels mnemonic operands with
  | error e => rw [hword] at h; cases h
  | ok w =>
    rw [hword] at h
    cases hrest : emit labels rest with
    | error e => rw [hrest] at h; cases h
    | ok us => rw [hrest] at h; cases h; exact ⟨w, us, rfl, rfl⟩

/-- Pass 2 emits one word a line, so the words of the lines from any point on begin at the count of the lines before. -/
theorem emit_append_cases {labels : List (Text × Nat)} {post : List Line} :
    ∀ {pre : List Line} {ws : List Nat}, emit labels (pre ++ post) = .ok ws →
      ∃ us vs, emit labels post = .ok vs ∧ ws = us ++ vs ∧ us.length = wordCount pre := by
  intro pre
  induction pre with
  | nil => exact fun {ws} h => ⟨[], ws, h, rfl, rfl⟩
  | cons line pre ih =>
    intro ws h
    cases line with
    | blank => exact ih h
    | label name =>
      obtain ⟨xs, hxs, rfl⟩ := emit_label_cases h
      obtain ⟨us, vs, hvs, rfl, hlen⟩ := ih hxs
      exact ⟨0 :: us, vs, hvs, rfl, congrArg (· + 1) hlen⟩
    | instr mnemonic operands =>
      obtain ⟨w, xs, hxs, rfl⟩ := emit_instr_cases h
      obtain ⟨us, vs, hvs, rfl, hlen⟩ := ih hxs
      exact ⟨w :: us, vs, hvs, rfl, congrArg (· + 1) hlen⟩

theorem emit_length {labels : List (Text × Nat)} {lines : List Line} {ws : List Nat}
    (h : emit labels lines = .ok ws) : ws.length = wordCount lines := by
  rw [← List.append_nil lines] at h
  obtain ⟨us, vs, hvs, rfl, hlen⟩ := emit_append_cases h
  cases hvs
  rw [List.append_nil, hlen]

/-- Settles O51: pass 2's length. -/
theorem assemblyGivesOneWordPerNonBlankLine : Obligations.AssemblyGivesOneWordPerNonBlankLine :=
  fun _ _ h => emit_length (assembleLines_cases h).2

/-! ## A label's position (R77) -/

/-- The word at the count of the lines before a declaration is that label line's placeholder. -/
theorem emit_label_getElem? {labels : List (Text × Nat)} {pre post : List Line} {name : Text} {ws : List Nat}
    (h : emit labels (pre ++ .label name :: post) = .ok ws) : ws[wordCount pre]? = some 0 := by
  obtain ⟨us, vs, hvs, rfl, hlen⟩ := emit_append_cases h
  obtain ⟨xs, -, rfl⟩ := emit_label_cases hvs
  simp [← hlen]

/-- Pass 1 records each declaration at the count of the lines before it, on top of the counts it begins with. -/
theorem mem_labelTable_of_declared (name : Text) (post : List Line) (pre : List Line) :
    ∀ instrs labels : Nat,
      (name, instrs + labels + wordCount pre) ∈ labelTable instrs labels (pre ++ .label name :: post) := by
  induction pre with
  | nil => exact fun _ _ => List.mem_cons_self
  | cons line pre ih =>
    intro instrs labels
    cases line with
    | blank => exact ih instrs labels
    | label other =>
      have hpos : instrs + labels + wordCount (.label other :: pre) = instrs + (labels + 1) + wordCount pre := by
        rw [wordCount_label]; omega
      rw [hpos]
      exact List.mem_cons_of_mem _ (ih instrs (labels + 1))
    | instr mnemonic operands =>
      have hpos :
          instrs + labels + wordCount (.instr mnemonic operands :: pre) = instrs + 1 + labels + wordCount pre := by
        rw [wordCount_instr]; omega
      rw [hpos]
      exact ih (instrs + 1) labels

/-- Pass 1 records nothing else. -/
theorem declared_of_mem_labelTable {name : Text} {p : Nat} {lines : List Line} :
    ∀ {instrs labels : Nat}, (name, p) ∈ labelTable instrs labels lines →
      ∃ pre post, lines = pre ++ .label name :: post ∧ p = instrs + labels + wordCount pre := by
  induction lines with
  | nil => exact fun h => nomatch h
  | cons line rest ih =>
    intro instrs labels h
    cases line with
    | blank =>
      obtain ⟨pre, post, rfl, hp⟩ := ih (labels := labels) h
      exact ⟨.blank :: pre, post, rfl, hp⟩
    | label other =>
      rcases List.mem_cons.1 h with heq | hrest
      · cases heq
        exact ⟨[], rest, rfl, rfl⟩
      · obtain ⟨pre, post, rfl, hp⟩ := ih hrest
        exact ⟨.label other :: pre, post, rfl, by rw [wordCount_label]; omega⟩
    | instr mnemonic operands =>
      obtain ⟨pre, post, rfl, hp⟩ := ih (instrs := instrs + 1) h
      exact ⟨.instr mnemonic operands :: pre, post, rfl, by rw [wordCount_instr]; omega⟩

theorem hasDuplicate_cons_eq_false {n : Text} {q : Nat} {table : List (Text × Nat)}
    (h : hasDuplicate ((n, q) :: table) = false) : (∀ p, (n, p) ∉ table) ∧ hasDuplicate table = false := by
  obtain ⟨hany, htail⟩ := Bool.or_eq_false_iff.1 h
  exact ⟨fun p hp => List.any_eq_false.1 hany (n, p) hp (beq_self_eq_true n), htail⟩

/-- In a table without duplicates the look-up finds every entry. -/
theorem labelPosition_of_mem {name : Text} {p : Nat} {table : List (Text × Nat)} (hdup : hasDuplicate table = false)
    (hmem : (name, p) ∈ table) : labelPosition name table = some p := by
  induction table with
  | nil => cases hmem
  | cons entry table ih =>
    obtain ⟨n, q⟩ := entry
    obtain ⟨hfresh, htail⟩ := hasDuplicate_cons_eq_false hdup
    rcases List.mem_cons.1 hmem with heq | hrest
    · cases heq
      exact if_pos rfl
    · have hne : name ≠ n := by
        rintro rfl
        exact hfresh p hrest
      exact (if_neg hne).trans (ih htail hrest)

/-- Settles O52: pass 1 and pass 2 count the same lines, and pass 1's table has one entry for each label. -/
theorem labelPositionIsItsPlaceholderIndex : Obligations.LabelPositionIsItsPlaceholderIndex := by
  intro lines ws h
  obtain ⟨hdup, hemit⟩ := assembleLines_cases h
  refine ⟨fun pre post name hlines => ?_, fun name p hmem => ?_⟩
  · subst hlines
    have hentry := mem_labelTable_of_declared name post pre 0 0
    rw [Nat.add_zero, Nat.zero_add] at hentry
    exact ⟨labelPosition_of_mem hdup hentry, emit_label_getElem? hemit⟩
  · obtain ⟨pre, post, rfl, rfl⟩ := declared_of_mem_labelTable hmem
    rw [Nat.add_zero, Nat.zero_add]
    exact emit_label_getElem? hemit

end Sys2Proof.Assembler

/-! PROOFS. The family of 40_step_and_operands.md: decoding every word, the fetch, the operand resolver, and how a step
ends with and without a fault. -/

namespace Sys2Proof

/-! ## Every word decodes (40_step_and_operands.md R95, R96, 30_encoding.md R72) -/

theorem decode_of_lt {v : Nat} (h : v < 2 ^ 16) : decode v = .ok (decodeWord (BitVec.ofNat 16 v)) := if_pos h

theorem decode_of_le {v : Nat} (h : 2 ^ 16 ≤ v) : decode v = .error (.overWide v) := if_neg (not_lt.2 h)

/-- Settles O7: the decoder's one check, on both sides of `2^16`. -/
theorem exactlyOverWideValuesAreRejected : Obligations.ExactlyOverWideValuesAreRejected :=
  fun _ => ⟨fun hlt => ⟨_, decode_of_lt hlt⟩, decode_of_le⟩

/-- A word is its opcode and its two operands, packed. -/
theorem packWord_slices (w : InstrWord) : packWord (opcodeOf w) (srcOf w) (dstOf w) = w := by
  apply BitVec.eq_of_toNat_eq
  rw [packWord_toNat_fields, opcodeOf_toNat, srcOf_tag_toNat, srcOf_field_toNat, dstOf_tag_toNat, dstOf_field_toNat]
  omega

/-- Encoding gives back the word that was decoded. -/
theorem encode_decodeWord (w : InstrWord) : encode (decodeWord w) = w := by
  by_cases hw : w = 0#16
  · rw [(decodeWord_eq_placeholder_iff w).2 hw, hw]
    rfl
  · rw [encode_of_operands (decodeWord_operands_of_ne_zero hw), Machine.decodeWord_opcode, packWord_slices]

/-- The one ill-formed instruction, opcode 0 with both operands absent, has the placeholder's word (R69, R70). -/
theorem wf_of_encode_ne_zero {i : Instr} (h : encode i ≠ 0#16) : i.wf = true := by
  cases i with
  | reserved0 src dst =>
    by_contra hwf
    have habsent : src = Operand.absent ∧ dst = Operand.absent := by simpa [Instr.wf] using hwf
    obtain ⟨rfl, rfl⟩ := habsent
    exact h (by decide)
  | _ => rfl

theorem decodeWord_wf (w : InstrWord) : (decodeWord w).wf = true := by
  by_cases hw : w = 0#16
  · rw [(decodeWord_eq_placeholder_iff w).2 hw]
    rfl
  · exact wf_of_encode_ne_zero (by rwa [encode_decodeWord])

/-- Settles O2: the decoded instruction packs the word's own slices again. -/
theorem everyWordDecodesAndEncodesBack : Obligations.EveryWordDecodesAndEncodesBack :=
  fun w => ⟨decodeWord w, Machine.decode_toNat w, decodeWord_wf w, encode_decodeWord w⟩

end Sys2Proof

namespace Sys2Proof.Machine

/-! ## STEP before the dispatch (40_step_and_operands.md R90-R94) -/

/-- Settles O8: a fetch inside the program runs what the cell decodes to. -/
theorem stepRunsTheDecodedInstruction : Obligations.StepRunsTheDecodedInstruction :=
  fun _ _ hs hlo hhi _ hd => step_of_decode hs ⟨hlo, hhi⟩ hd

/-- The outcome of a step is one of the three, read off the status it left (R103, 60_exceptions.md R130). -/
theorem outcome_cases (s : State) : s.outcome = .continuing ∨ s.outcome = .halted ∨ ∃ c, s.outcome = .fault c := by
  unfold State.outcome
  cases s.status with
  | ready => exact .inl rfl
  | halted => exact .inr (.inl rfl)
  | faulted c => exact .inr (.inr ⟨c, rfl⟩)

/-- Settles O9: the next state exists, and the host is told the outcome its status stands for. -/
theorem everyStepHasANextState : Obligations.EveryStepHasANextState := by
  intro s
  obtain ⟨t, h⟩ := step_next s
  exact ⟨t, h, hostApply_step h, outcome_cases t⟩

/-- No program is loaded at power-on, so its region holds no pc (70_reset_and_hazards.md R151). -/
theorem powerOn_pcOutside (capacity offset : Nat) : ¬(State.powerOn capacity offset).pcInProgram :=
  fun hp => lt_irrefl offset hp.2

/-- Settles O10: the range check comes before the fetch, and it fails at power-on. -/
theorem fetchOutsideTheProgramFaults : Obligations.FetchOutsideTheProgramFaults :=
  ⟨fun _ hs hp => step_of_pcOutside hs hp,
    fun capacity offset => ⟨_, step_of_pcOutside rfl (powerOn_pcOutside capacity offset), rfl⟩⟩

/-- A step that left the core READY reports Continuing (R103). -/
theorem outcome_of_ready {s : State} (hs : s.status = .ready) : s.outcome = .continuing := by
  unfold State.outcome
  rw [hs]

/-- A fetched word 0 only advances the pc (R94). -/
theorem step_of_zero {s : State} (hs : s.status = .ready) (hp : s.pcInProgram) (hw : s.mem.read s.pc = 0#16) :
    step s = .next s.advance := by
  rw [step_of_pcInProgram hs hp, (decodeWord_eq_placeholder_iff _).2 hw, exec_placeholder]

/-- Settles O11: the placeholder's meaning, and the step that fetches it. -/
theorem placeholderOnlyAdvances : Obligations.PlaceholderOnlyAdvances := by
  refine ⟨exec_placeholder, fun s hs hlo hhi hw => ?_⟩
  rw [hostApply_step (step_of_zero hs ⟨hlo, hhi⟩ hw), outcome_of_ready (s := s.advance) hs]
  rfl

/-! ## A stopped core (R91, 60_exceptions.md R134) -/

theorem hostApply_step_of_not_ready {s : State} (hs : s.status ≠ .ready) :
    hostApply .step s = (s, .outcome s.outcome) :=
  hostApply_step (step_of_not_ready hs)

/-- Settles O12: a stopped core's STEP keeps its state, and of the other operations only LOAD writes status or record. -/
theorem onlyLoadLeavesAStoppedCore : Obligations.OnlyLoadLeavesAStoppedCore := by
  refine ⟨fun s hs => ?_, fun s c hs => ?_, fun s op hs hop => ?_⟩
  · rw [hostApply_step_of_not_ready (by simp [hs]), State.outcome, hs]
  · rw [hostApply_step_of_not_ready (by simp [hs]), State.outcome, hs]
  · rcases hostApply_cases op s with ⟨m, h⟩ | ⟨words, hload, -⟩ | h
    · rw [h]
      exact ⟨rfl, rfl⟩
    · exact absurd hload (hop words)
    · have hsame : (hostApply op s).1 = s := Host.Outcome.next.inj (h.symm.trans (step_of_not_ready hs))
      rw [hsame]
      exact ⟨rfl, rfl⟩

/-! ## The operand resolver (R97, R100) -/

/-- Settles O19: the four rows of the mode table. -/
theorem resolveReadFollowsTheModeTable : Obligations.ResolveReadFollowsTheModeTable := by
  intro s f
  refine ⟨rfl, ?_, ⟨immediateValue f, rfl, ?_⟩, rfl⟩
  · have hread : resolveRead s ⟨.indirect, f⟩ = memRead s (s.reg f).toNat := rfl
    split
    · rw [hread, memRead_of_lt ‹_›]
    · rw [hread, memRead_of_le (not_lt.1 ‹_›)]
  · have hf := f.isLt
    rw [immediateValue, BitVec.toNat_setWidth, Nat.mod_eq_of_lt (by omega)]

/-- An operand that is read has no fault, and what is read is its value. -/
theorem resolveRead_cases {s : State} {o : Operand} {v : Word} (h : resolveRead s o = .ok v) :
    s.operandFault o = none ∧ v = s.operandValue o := by
  cases hf : s.operandFault o with
  | some c => cases (resolveRead_error hf).symm.trans h
  | none => cases (resolveRead_ok hf).symm.trans h; exact ⟨rfl, rfl⟩

/-- Settles O20: an INDIRECT operand that was read is below CAPACITY, so its write answers, at the same address. -/
theorem indirectWriteGoesToTheCellThatWasRead : Obligations.IndirectWriteGoesToTheCellThatWasRead := by
  intro s f old v hwf h
  obtain ⟨hf, hold⟩ := resolveRead_cases h
  exact ⟨hold, _, resolveWrite_indirect v hf rfl, fun a => Memory.read_write hwf _ a v⟩

/-! ## The faults of an instruction, in their order (R97, R98, 60_exceptions.md R135) -/

/-- Settles O18: an instruction with operands resolves them before its effect. -/
theorem resolutionFaultsComeFirstForEveryOpcode : Obligations.ResolutionFaultsComeFirstForEveryOpcode :=
  fun _ _ _ _ _ ho hc => exec_of_operandFault ho hc

/-- The fault an instruction raises once its operands have resolved: its opcode's, or else that of an IMMEDIATE
destination it would write (60_exceptions.md R135). -/
def ownFault (op : Opcode) (dst : Operand) : Option Fault :=
  (opcodeFault op).or (if (op = 1#4 ∨ op = 3#4) ∧ dst.mode = .immediate then some .invalidDestination else none)

/-- The first fault of an instruction with operands: the source's, the destination's, its own. -/
def State.instrFault (s : State) (op : Opcode) (src dst : Operand) : Option Fault :=
  (s.operandFault src).or ((s.operandFault dst).or (ownFault op dst))

/-- MOV and ADD have no fault of their own but that of an IMMEDIATE destination (R99). -/
theorem ownFault_of_stores {op : Opcode} (hop : op = 1#4 ∨ op = 3#4) (dst : Operand) :
    ownFault op dst = if dst.mode = .immediate then some .invalidDestination else none := by
  rcases hop with rfl | rfl <;> simp [ownFault, opcodeFault]

theorem resolveWrite_immediate {dst : Operand} (s : State) (v : Word) (hm : dst.mode = .immediate) :
    resolveWrite s dst v = .error .invalidDestination := by
  unfold resolveWrite
  rw [hm]

/-- An instruction with a fault of its own answers that fault in place of an effect. -/
theorem effect_of_ownFault {i : Instr} {src dst : Operand} (ho : i.operands = some (src, dst)) {c : Fault}
    (hc : ownFault i.opcode dst = some c) (s : State) (a b : Word) : effect i s a b = .error c := by
  have store : (i.opcode = 1#4 ∨ i.opcode = 3#4) → dst.mode = .immediate ∧ c = .invalidDestination := by
    intro hop
    rw [ownFault_of_stores hop] at hc
    split at hc
    · cases hc; exact ⟨‹_›, rfl⟩
    · cases hc
  cases i with
  | placeholder => cases ho
  | mov _ d =>
    cases ho
    obtain ⟨hm, rfl⟩ := store (.inl rfl)
    rw [effect_mov, resolveWrite_immediate _ _ hm]
    rfl
  | add _ d =>
    cases ho
    obtain ⟨hm, rfl⟩ := store (.inr rfl)
    rw [effect_add, resolveWrite_immediate _ _ hm]
    rfl
  | cmp | jlo | jmp | nop => cases hc
  | _ => cases hc; rfl

/-- An instruction without a fault of its own, its destination resolved, has an effect. -/
theorem effect_of_ownFault_eq_none {i : Instr} {src dst : Operand} (ho : i.operands = some (src, dst))
    (hc : ownFault i.opcode dst = none) {s : State} (hd : s.operandFault dst = none) (a b : Word) :
    ∃ t, effect i s a b = .ok t := by
  have store : (i.opcode = 1#4 ∨ i.opcode = 3#4) → ∀ v, ∃ u, resolveWrite s dst v = .ok u := by
    intro hop v
    rw [ownFault_of_stores hop] at hc
    exact resolveWrite_ok v hd fun hm => by simp [hm] at hc
  cases i with
  | placeholder => cases ho
  | mov _ d =>
    cases ho
    obtain ⟨u, hu⟩ := store (.inl rfl) a
    exact ⟨u.advance, by rw [effect_mov, hu]; rfl⟩
  | add _ d =>
    cases ho
    obtain ⟨u, hu⟩ := store (.inr rfl) (wrappingSum b a)
    exact ⟨u.advance, by rw [effect_add, hu]; rfl⟩
  | cmp | jlo | jmp | nop => exact ⟨_, rfl⟩
  | _ => cases hc

/-- An instruction with a fault takes its first one. -/
theorem exec_of_instrFault {i : Instr} {src dst : Operand} (ho : i.operands = some (src, dst)) {s : State} {c : Fault}
    (hc : s.instrFault i.opcode src dst = some c) : exec i s = .next (s.takeFault c (some (encode i))) := by
  unfold State.instrFault at hc
  rcases resolves_or_fault s src dst with hr | ⟨d, hd⟩
  · rw [hr.1, hr.2] at hc
    rw [exec_of_resolves ho hr, effect_of_ownFault ho hc, commit_error]
  · rw [← Option.or_assoc, hd] at hc
    cases hc
    exact exec_of_operandFault ho hd

/-- An instruction without a fault takes its effect. -/
theorem exec_of_instrFault_eq_none {i : Instr} {src dst : Operand} (ho : i.operands = some (src, dst)) {s : State}
    (hc : s.instrFault i.opcode src dst = none) : ∃ a b t, effect i s a b = .ok t ∧ exec i s = .next t := by
  obtain ⟨hsrc, hrest⟩ := Option.or_eq_none_iff.1 hc
  obtain ⟨hdst, hown⟩ := Option.or_eq_none_iff.1 hrest
  obtain ⟨t, ht⟩ := effect_of_ownFault_eq_none ho hown hdst (s.operandValue src) (s.operandValue dst)
  exact ⟨_, _, t, ht, by rw [exec_of_resolves ho ⟨hsrc, hdst⟩, ht, commit_ok]⟩

/-- The first fault of MOV or ADD with an IMMEDIATE destination, once the source has resolved (R99). -/
theorem instrFault_of_immediate {s : State} {op : Opcode} {src dst : Operand} (hop : op = 1#4 ∨ op = 3#4)
    (hs : s.operandFault src = none) (hm : dst.mode = .immediate) :
    s.instrFault op src dst = some .invalidDestination := by
  have hd : s.operandFault dst = none := by rw [State.operandFault, hm]
  rw [State.instrFault, hs, hd, ownFault_of_stores hop, if_pos hm]
  rfl

/-- Settles O24: InvalidDestination is the instruction's first fault. -/
theorem immediateDestinationFaults : Obligations.ImmediateDestinationFaults := by
  intro s src dst hs hm
  exact ⟨exec_of_instrFault (i := .mov src dst) rfl (instrFault_of_immediate (.inl rfl) hs hm),
    exec_of_instrFault (i := .add src dst) rfl (instrFault_of_immediate (.inr rfl) hs hm)⟩

/-! ## The first fault of a step (60_exceptions.md R135) -/

theorem firstFault_of_pcOutside {s : State} (hp : ¬s.pcInProgram) : s.firstFault = some .pcOutOfProgram := if_pos hp

theorem firstFault_of_zero {s : State} (hp : s.pcInProgram) (hw : s.mem.read s.pc = 0#16) : s.firstFault = none := by
  rw [State.firstFault, if_neg (not_not_intro hp), if_pos hw]

/-- The first fault of a step that fetches a nonzero word is that of the word's instruction. -/
theorem firstFault_of_ne_zero {s : State} (hp : s.pcInProgram) (hw : s.mem.read s.pc ≠ 0#16) :
    s.firstFault = s.instrFault (decodeWord (s.mem.read s.pc)).opcode (srcOf (s.mem.read s.pc))
      (dstOf (s.mem.read s.pc)) := by
  rw [State.firstFault, if_neg (not_not_intro hp), if_neg hw, if_neg (not_le.2 (s.mem.read s.pc).isLt),
    decodeWord_opcode]
  rfl

/-- The step of a READY core with a fault takes its first one. -/
theorem step_of_firstFault {s : State} {c : Fault} (hs : s.status = .ready) (hc : s.firstFault = some c) :
    ∃ word, step s = .next (s.takeFault c word) := by
  by_cases hp : s.pcInProgram
  · by_cases hw : s.mem.read s.pc = 0#16
    · rw [firstFault_of_zero hp hw] at hc
      cases hc
    · rw [firstFault_of_ne_zero hp hw] at hc
      exact ⟨_, (step_of_pcInProgram hs hp).trans (exec_of_instrFault (decodeWord_operands_of_ne_zero hw) hc)⟩
  · rw [firstFault_of_pcOutside hp] at hc
    cases hc
    exact ⟨none, step_of_pcOutside hs hp⟩

/-- The step of a READY core without a fault takes the effect of the fetched word's instruction. -/
theorem step_of_firstFault_eq_none {s : State} (hs : s.status = .ready) (hc : s.firstFault = none) :
    ∃ a b t, effect (decodeWord (s.mem.read s.pc)) s a b = .ok t ∧ step s = .next t := by
  by_cases hp : s.pcInProgram
  · rw [step_of_pcInProgram hs hp]
    by_cases hw : s.mem.read s.pc = 0#16
    · rw [(decodeWord_eq_placeholder_iff _).2 hw]
      exact ⟨0#16, 0#16, _, rfl, exec_placeholder s⟩
    · rw [firstFault_of_ne_zero hp hw] at hc
      exact exec_of_instrFault_eq_none (decodeWord_operands_of_ne_zero hw) hc
  · rw [firstFault_of_pcOutside hp] at hc
    cases hc

/-! ## The pc after a step (R102) -/

/-- The pc that the effect of an instruction leaves: the target for JMP and for JLO taken, else one more. -/
def State.nextPc (s : State) : Instr → Nat
  | .jmp src _ => s.offset + src.field.toNat
  | .jlo src _ => if s.flag = true then s.offset + src.field.toNat else s.pc + 1
  | _ => s.pc + 1

theorem effect_pc {i : Instr} {s t : State} {a b : Word} (h : effect i s a b = .ok t) : t.pc = s.nextPc i := by
  have write : ∀ (dst : Operand) (v : Word), (resolveWrite s dst v).map State.advance = .ok t → t.pc = s.pc + 1 := by
    intro dst v hw
    cases hu : resolveWrite s dst v with
    | error c => rw [hu] at hw; cases hw
    | ok u =>
      rw [hu] at hw
      cases hw
      obtain ⟨hpc, -, -⟩ := resolveWrite_control hu
      rw [State.advance_pc, hpc]
  cases i with
  | mov src dst => exact write dst _ (effect_mov src dst s a b ▸ h)
  | add src dst => exact write dst _ (effect_add src dst s a b ▸ h)
  | jlo src dst =>
    cases h
    simp only [State.nextPc]
    split <;> rfl
  | placeholder | cmp | jmp | nop => cases h; rfl
  | _ => cases h

/-- The pc after a word's instruction, from the bits of the word (30_encoding.md R62, R66). -/
theorem nextPc_decodeWord (s : State) (w : InstrWord) :
    s.nextPc (decodeWord w) =
      if w.toNat / 2 ^ 12 = 7 ∨ (w.toNat / 2 ^ 12 = 5 ∧ s.flag = true) then s.offset + w.toNat / 2 ^ 6 % 16
      else s.pc + 1 := by
  have hop : w.toNat / 2 ^ 12 = (decodeWord w).opcode.toNat := by rw [decodeWord_opcode, opcodeOf_toNat]
  have hfield : ∀ {src dst : Operand}, (decodeWord w).operands = some (src, dst) →
      src.field.toNat = w.toNat / 2 ^ 6 % 16 := by
    intro src dst ho
    obtain ⟨rfl, -⟩ := decodeWord_operands ho
    exact srcOf_field_toNat w
  rw [hop]
  cases hi : decodeWord w with
  | jmp src dst => simp [State.nextPc, Instr.opcode, hfield (congrArg Instr.operands hi)]
  | jlo src dst => simp [State.nextPc, Instr.opcode, hfield (congrArg Instr.operands hi)]
  | _ => simp [State.nextPc, Instr.opcode]

/-- Settles O16: a fault taken keeps the pc, and an effect moves it as the fetched word says. -/
theorem pcAdvancesByOneUnlessJumpOrFault : Obligations.PcAdvancesByOneUnlessJumpOrFault := by
  intro s t hs h
  cases hc : s.firstFault with
  | some c =>
    obtain ⟨word, hstep⟩ := step_of_firstFault hs hc
    cases hstep.symm.trans h
    rfl
  | none =>
    obtain ⟨a, b, u, heffect, hstep⟩ := step_of_firstFault_eq_none hs hc
    cases hstep.symm.trans h
    exact (effect_pc heffect).trans (nextPc_decodeWord s _)

end Sys2Proof.Machine

/-! PROOFS. The family of 41_data_ops.md: MOV, ADD and CMP. -/

namespace Sys2Proof.Machine

/-! ## The instructions that write their destination (41_data_ops.md R110, R112) -/

/-- An instruction whose effect is one operand write of `v` and an advance: the write's effect, the pc one further, and
nothing else. -/
theorem exec_writes_destination {i : Instr} {src dst : Operand} (ho : i.operands = some (src, dst)) {s : State}
    {v : Word}
    (heffect : effect i s (s.operandValue src) (s.operandValue dst) = (resolveWrite s dst v).map State.advance)
    (hwf : s.mem.wf = true) (hr : s.Resolves src dst) (hm : dst.mode ≠ .immediate) :
    ∃ t, exec i s = .next t ∧ Wrote s t dst v ∧ t.pc = s.pc + 1 ∧ t.flag = s.flag ∧ SameControl s t := by
  obtain ⟨u, hu⟩ := resolveWrite_ok v hr.2 hm
  obtain ⟨hwrote, hpc, hflag, hcontrol⟩ := resolveWrite_wrote hwf hu
  have hexec : exec i s = .next u.advance := by
    rw [exec_of_resolves ho hr, heffect, hu]
    rfl
  exact ⟨u.advance, hexec, hwrote, congrArg (· + 1) hpc, hflag, hcontrol⟩

/-- Settles O21: MOV's effect is one write of the source's value. -/
theorem movWritesTheSourceValue : Obligations.MovWritesTheSourceValue := by
  intro s src dst hwf hr hm
  exact exec_writes_destination (i := .mov src dst) rfl (effect_mov src dst s _ _) hwf hr hm

/-- Settles O22: ADD's effect is one write of the wrapped sum. -/
theorem addWritesTheWrappedSum : Obligations.AddWritesTheWrappedSum := by
  intro s src dst hwf hr hm
  obtain ⟨t, hexec, hwrote, hrest⟩ :=
    exec_writes_destination (i := .add src dst) rfl (effect_add src dst s _ _) hwf hr hm
  exact ⟨t, _, hexec, hwrote, wrappingSum_toNat _ _, hrest⟩

/-! ## CMP (R111) -/

/-- Settles O23: CMP commits the flag of its two values and the advance, with no write that could fault. -/
theorem cmpSetsTheFlagToUnsignedLess : Obligations.CmpSetsTheFlagToUnsignedLess := by
  intro s src dst hr
  rw [exec_of_resolves (i := .cmp src dst) rfl hr]
  rfl

/-! ## Corner cases with a REGISTER destination (R110, R112) -/

theorem State.setReg_reg_self (s : State) (f : OpField) : s.setReg f (s.reg f) = s := by
  have hregs : s.regs.set f.toNat (s.reg f) f.isLt = s.regs := Vector.set_getElem_self f.isLt
  rw [State.setReg, hregs]

/-- MOV into a register: the one write, and the pc one further. -/
theorem exec_mov_register {s : State} {src : Operand} (hs : s.operandFault src = none) (f : OpField) :
    exec (.mov src ⟨.register, f⟩) s = .next (s.setReg f (s.operandValue src)).advance := by
  rw [exec_of_resolves (i := .mov src ⟨.register, f⟩) rfl ⟨hs, rfl⟩]
  rfl

/-- ADD into a register: the one write, and the pc one further. -/
theorem exec_add_register {s : State} {src : Operand} (hs : s.operandFault src = none) (f : OpField) :
    exec (.add src ⟨.register, f⟩) s = .next (s.setReg f (s.reg f + s.operandValue src)).advance := by
  rw [exec_of_resolves (i := .add src ⟨.register, f⟩) rfl ⟨hs, rfl⟩, effect_add, wrappingSum_eq_add]
  rfl

/-- Settles O25: the first two write a register's own value back, and the third adds it to itself. -/
theorem registerToItselfCornerCases : Obligations.RegisterToItselfCornerCases := by
  intro s f
  refine ⟨?_, ?_, _, exec_add_register (src := ⟨.register, f⟩) rfl f, ?_⟩
  · have hvalue : s.operandValue ⟨.register, f⟩ = s.reg f := rfl
    rw [exec_mov_register rfl, hvalue, State.setReg_reg_self]
    rfl
  · have hvalue : s.operandValue ⟨.immediate, 0#4⟩ = 0#16 := rfl
    rw [exec_add_register rfl, hvalue, BitVec.add_zero, State.setReg_reg_self]
    rfl
  · have hvalue : s.operandValue ⟨.register, f⟩ = s.reg f := rfl
    rw [State.advance_reg, State.reg_setReg, if_pos rfl, hvalue, BitVec.toNat_add, two_mul]

end Sys2Proof.Machine

/-! PROOFS. The family of 42_control_ops.md: JLO and JMP. -/

namespace Sys2Proof.Machine

/-! ## What the two jumps do once their operands resolve (42_control_ops.md R115, R116) -/

theorem exec_jmp {s : State} {src dst : Operand} (hr : s.Resolves src dst) :
    exec (.jmp src dst) s = .next (s.jumpTo src.field) := by
  rw [exec_of_resolves (i := .jmp src dst) rfl hr]
  rfl

theorem exec_jlo {s : State} {src dst : Operand} (hr : s.Resolves src dst) :
    exec (.jlo src dst) s = .next (if s.flag = true then s.jumpTo src.field else s.advance) := by
  rw [exec_of_resolves (i := .jlo src dst) rfl hr]
  rfl

/-- Settles O27: each value of the flag picks one of JLO's two ends, and both write the pc alone. -/
theorem jloJumpsExactlyWhenTheFlagIsSet : Obligations.JloJumpsExactlyWhenTheFlagIsSet := by
  intro s src dst hr
  rw [exec_jlo hr]
  by_cases hf : s.flag = true
  · rw [if_pos hf, if_pos hf]
    rfl
  · rw [if_neg hf, if_neg hf]
    rfl

/-- Settles O28: the source's mode only decides whether it resolves; the target is its raw field. -/
theorem jmpGoesToTheRawSourceField : Obligations.JmpGoesToTheRawSourceField :=
  fun _ _ _ hr => exec_jmp hr

/-! ## A jump beyond the program (R118) -/

/-- The program's positions are those below `plen`, so a target from there on leaves it. -/
theorem jumpTo_pcOutside {s : State} {f : OpField} (hf : s.plen ≤ f.toNat) : ¬(s.jumpTo f).pcInProgram := by
  rintro ⟨-, hlt⟩
  exact absurd (Nat.lt_of_add_lt_add_left hlt) (not_lt.2 hf)

/-- Settles O29: either jump only moves the pc, which leaves the core READY; the range check of the next step fails. -/
theorem jumpBeyondTheProgramFaultsAtTheNextFetch : Obligations.JumpBeyondTheProgramFaultsAtTheNextFetch := by
  intro s src dst hs hlo hhi hi hr hbeyond
  have hstep : step s = .next (s.jumpTo src.field) := by
    rcases hi with hd | ⟨hd, hflag⟩
    · rw [step_of_decode hs ⟨hlo, hhi⟩ hd, exec_jmp hr]
    · rw [step_of_decode hs ⟨hlo, hhi⟩ hd, exec_jlo hr, if_pos hflag]
  have hready : (s.jumpTo src.field).status = .ready := hs
  exact ⟨_, hstep, outcome_of_ready hready, State.jumpTo_pc s src.field,
    step_of_pcOutside hready (jumpTo_pcOutside hbeyond)⟩

end Sys2Proof.Machine

/-! PROOFS. The family of 43_halt_unimplemented_unknown.md: the halt, and the opcodes that have a fault for their effect. -/

namespace Sys2Proof.Machine

/-! ## The halt (43_halt_unimplemented_unknown.md R120) -/

theorem exec_nop {s : State} {src dst : Operand} (hr : s.Resolves src dst) :
    exec (.nop src dst) s = .next s.advance.halt := by
  rw [exec_of_resolves (i := .nop src dst) rfl hr]
  rfl

/-- Settles O30: the advance and the halt write pc and status alone. -/
theorem nopAdvancesAndHalts : Obligations.NopAdvancesAndHalts :=
  fun _ _ _ hr => exec_nop hr

/-! ## The opcodes that only fault (R121, R122, R123) -/

/-- An instruction whose opcode raises a fault takes it once its operands resolve, and has no other effect. -/
theorem exec_of_opcodeFault {i : Instr} {src dst : Operand} (ho : i.operands = some (src, dst)) {s : State}
    (hr : s.Resolves src dst) {c : Fault} (hc : opcodeFault i.opcode = some c) :
    exec i s = .next (s.takeFault c (some (encode i))) := by
  obtain ⟨hsrc, hdst⟩ := hr
  have hfirst : s.instrFault i.opcode src dst = some c := by
    rw [State.instrFault, hsrc, hdst, ownFault, hc]
    rfl
  exact exec_of_instrFault ho hfirst

/-- Settles O32: opcodes 4 and 6 raise NotImplemented. -/
theorem decAndJnzTakeTheNotImplementedFault : Obligations.DecAndJnzTakeTheNotImplementedFault := by
  intro s src dst i hr hi
  have hfields : i.operands = some (src, dst) ∧ opcodeFault i.opcode = some .notImplemented := by
    rcases hi with rfl | rfl <;> exact ⟨rfl, rfl⟩
  obtain ⟨ho, hc⟩ := hfields
  exact exec_of_opcodeFault ho hr hc

/-- Settles O33: opcode 0 and opcodes 8 to 14 raise UnknownInstruction. -/
theorem reservedOpcodesTakeTheUnknownInstructionFault : Obligations.ReservedOpcodesTakeTheUnknownInstructionFault := by
  intro s src dst i hr hi
  have hfields : i.operands = some (src, dst) ∧ opcodeFault i.opcode = some .unknownInstruction := by
    rcases hi with rfl | rfl | rfl | rfl | rfl | rfl | rfl | rfl <;> exact ⟨rfl, rfl⟩
  obtain ⟨ho, hc⟩ := hfields
  exact exec_of_opcodeFault ho hr hc

/-! ## The end of a run (40_step_and_operands.md R91, 70_reset_and_hazards.md R160) -/

/-- Every run from a stopped core stays where it is. -/
theorem run_of_not_ready {s : State} (hs : s.status ≠ .ready) (k : Nat) :
    Host.Core.run Sys2Proof.core k s = .next s := by
  induction k with
  | zero => rfl
  | succ k ih => rw [run_succ k (step_of_not_ready hs), ih]

/-- A run whose first step stops the core is at the state of that step from then on. -/
theorem run_succ_of_not_ready {s t : State} (h : step s = .next t) (ht : t.status ≠ .ready) (k : Nat) :
    Host.Core.run Sys2Proof.core (k + 1) s = .next t := by
  rw [run_succ k h, run_of_not_ready ht]

/-- A run whose first step does not continue ends there, with that step's outcome. -/
theorem runEndsAt_zero {s t : State} (h : step s = .next t) (ht : t.outcome ≠ .continuing) :
    RunEndsAt s 0 t.outcome :=
  ⟨ht, fun _ _ hj hj0 => absurd (hj.trans hj0) (by decide), t, run_succ 0 h, rfl⟩

/-! ## The halt words (R120, 92_eei_decisions.md D9) -/

theorem decodeWord_of_opcode_fifteen {w : InstrWord} (hw : w.toNat / 2 ^ 12 = 15) :
    decodeWord w = .nop (srcOf w) (dstOf w) := by
  have hop : opcodeOf w = 15#4 := BitVec.eq_of_toNat_eq ((opcodeOf_toNat w).trans hw)
  have hne : w ≠ 0#16 := by
    rintro rfl
    simp at hw
  exact decodeWord_eq hne hop rfl

/-- A STEP that fetches a word of opcode 15 advances and halts. -/
theorem step_of_opcode_fifteen {s : State} (hs : s.status = .ready) (hp : s.pcInProgram)
    (hw : (s.mem.read s.pc).toNat / 2 ^ 12 = 15)
    (hr : s.Resolves (srcOf (s.mem.read s.pc)) (dstOf (s.mem.read s.pc))) :
    step s = .next s.advance.halt := by
  rw [step_of_pcInProgram hs hp, decodeWord_of_opcode_fifteen hw, exec_nop hr]

/-- The canonical halt word has opcode 15 and two REGISTER operands, which resolve in every state. -/
theorem canonicalHaltWord_fields (s : State) :
    (0xF000#16).toNat / 2 ^ 12 = 15 ∧ s.Resolves (srcOf 0xF000#16) (dstOf 0xF000#16) :=
  ⟨by decide, rfl, rfl⟩

/-- Settles O31: the step halts, which ends the run, and a halted core keeps its state. -/
theorem haltWordEndsTheRun : Obligations.HaltWordEndsTheRun := by
  rintro s w hs hlo hhi rfl hword
  have hhalt : (s.mem.read s.pc).toNat / 2 ^ 12 = 15 ∧
      s.Resolves (srcOf (s.mem.read s.pc)) (dstOf (s.mem.read s.pc)) := by
    rcases hword with hfields | hcanonical
    · exact hfields
    · rw [hcanonical]
      exact canonicalHaltWord_fields s
  obtain ⟨hop, hr⟩ := hhalt
  have hstep : step s = .next s.advance.halt := step_of_opcode_fifteen hs ⟨hlo, hhi⟩ hop hr
  exact ⟨runEndsAt_zero hstep nofun, run_succ_of_not_ready hstep nofun⟩

end Sys2Proof.Machine

/-! PROOFS. The family of 60_exceptions.md: the outcome of a step, what a fault leaves in the state, and how long the core
keeps it. -/

namespace Sys2Proof.Machine

/-! ## The status an instruction leaves (60_exceptions.md R130, R136) -/

theorem eq_nop_of_opcode {i : Instr} (h : i.opcode = 15#4) : ∃ src dst, i = .nop src dst := by
  cases i with
  | nop src dst => exact ⟨src, dst, rfl⟩
  | _ => cases h

/-- An effect halts for the halt opcode, and any other leaves the status alone; none latches a fault (R120, R133). -/
theorem effect_status {i : Instr} {s t : State} {a b : Word} (h : effect i s a b = .ok t) :
    t.status = if i.opcode = 15#4 then .halted else s.status := by
  by_cases hop : i.opcode = 15#4
  · rw [if_pos hop]
    obtain ⟨src, dst, rfl⟩ := eq_nop_of_opcode hop
    cases h
    rfl
  · rw [if_neg hop]
    rcases effect_cases h with rfl | ⟨_, rfl⟩ | ⟨_, _, _, rfl⟩ | ⟨_, _, rfl, _⟩ | ⟨_, _, _, _, _, hw, rfl⟩
    · rfl
    · rfl
    · rfl
    · exact absurd rfl hop
    · obtain ⟨-, -, -, hstatus, -⟩ := resolveWrite_control hw
      exact hstatus

theorem effect_outcome {i : Instr} {s t : State} {a b : Word} (hs : s.status = .ready)
    (h : effect i s a b = .ok t) : t.outcome = if i.opcode = 15#4 then .halted else .continuing := by
  rw [State.outcome, effect_status h, hs]
  split_ifs <;> rfl

/-- The halt opcode, from the bits of the word (30_encoding.md R62). -/
theorem decodeWord_opcode_eq_fifteen_iff (w : InstrWord) :
    (decodeWord w).opcode = 15#4 ↔ w.toNat / 2 ^ 12 = 15 := by
  rw [decodeWord_opcode, ← BitVec.toNat_inj, opcodeOf_toNat]
  rfl

/-! ## The outcome of a step (R130, R135) -/

/-- Settles O15: a READY core takes its first fault, and without one the effect's status decides the outcome. -/
theorem stepReportsTheFirstFaultInPriorityOrder : Obligations.StepReportsTheFirstFaultInPriorityOrder := by
  intro s hs
  cases hc : s.firstFault with
  | some c =>
    obtain ⟨word, hstep⟩ := step_of_firstFault hs hc
    exact ⟨_, hstep, rfl⟩
  | none =>
    obtain ⟨a, b, t, heffect, hstep⟩ := step_of_firstFault_eq_none hs hc
    refine ⟨t, hstep, ?_⟩
    simp only [effect_outcome hs heffect, decodeWord_opcode_eq_fifteen_iff]

/-! ## What a faulting step writes, and how long it stands (R132, R133, R134) -/

/-- A step that leaves FAULTED(c) took the fault c, with the fetched word recorded for every cause but PcOutOfProgram:
the encoding of the instruction that ran is the word it was decoded from. -/
theorem eq_takeFault_of_step_faulted {s t : State} {c : Fault} (hs : s.status = .ready) (h : step s = .next t)
    (ht : t.status = .faulted c) :
    t = s.takeFault c (if c = .pcOutOfProgram then none else some (s.mem.read s.pc)) := by
  rcases step_cases h with ⟨hstopped, -⟩ | ⟨-, -, rfl⟩ | ⟨-, -, hexec⟩
  · exact absurd hs hstopped
  · cases ht
    rfl
  · rcases exec_effect_or_fault hexec with ⟨a, b, heffect⟩ | ⟨d, hd, rfl⟩
    · rw [effect_status heffect, hs] at ht
      split_ifs at ht
    · cases ht
      rw [encode_decodeWord, if_neg hd]

/-- Without a LOAD, no list of the host's operations changes the latch or the record of a stopped core. -/
theorem foldl_hostApply_keeps_latch {s : State} (hs : s.status ≠ .ready) {ops : List HostOp}
    (hops : ∀ op ∈ ops, ∀ ws, op ≠ .load ws) :
    (ops.foldl (fun u op => (hostApply op u).1) s).status = s.status ∧
      (ops.foldl (fun u op => (hostApply op u).1) s).record = s.record := by
  obtain ⟨-, -, keeps⟩ := onlyLoadLeavesAStoppedCore
  induction ops generalizing s with
  | nil => exact ⟨rfl, rfl⟩
  | cons op ops ih =>
    obtain ⟨hop, hrest⟩ := List.forall_mem_cons.1 hops
    obtain ⟨hstatus, hrecord⟩ := keeps s op hs hop
    have hafter := ih (s := (hostApply op s).1) (hstatus ▸ hs) hrest
    rwa [hstatus, hrecord] at hafter

/-- Settles O14: the fault entry is the whole of a faulting step, and only LOAD clears it. -/
theorem faultingStepWritesOnlyTheLatchAndRecord : Obligations.FaultingStepWritesOnlyTheLatchAndRecord := by
  refine ⟨fun s t c hs h ht => eq_takeFault_of_step_faulted hs h ht, fun s c ops hs hops => ?_, fun s => ⟨rfl, rfl⟩⟩
  have hstopped : s.status ≠ .ready := by simp [hs]
  obtain ⟨-, hrecord⟩ := foldl_hostApply_keeps_latch hstopped hops
  exact hrecord

/-- Settles O13: a stopped core's step is the identity, and so is any number of them. -/
theorem stoppedCoreKeepsItsStateForever : Obligations.StoppedCoreKeepsItsStateForever :=
  fun _ k hs => run_of_not_ready hs k

/-! ## The codes (R130, R131) -/

/-- Settles O46: the two code tables, row by row. -/
theorem outcomeAndFaultCodes : Obligations.OutcomeAndFaultCodes :=
  ⟨rfl, rfl, fun _ => rfl, rfl⟩

end Sys2Proof.Machine

/-! PROOFS. The family of 70_reset_and_hazards.md: construction, what LOAD and HOSTWRITE store, the invariant under the
host's operations, and the one end of a run. -/

namespace Sys2Proof.Machine

/-! ## Construction (R150, R151) -/

@[simp] theorem powerOn_reg (capacity offset : Nat) (f : OpField) : (State.powerOn capacity offset).reg f = 0#16 :=
  Vector.getElem_replicate f.isLt

theorem construct_of_legal {capacity offset : Nat} (h : 1 ≤ capacity ∧ offset ≤ capacity) :
    State.construct capacity offset = some (State.powerOn capacity offset) := if_pos h

theorem construct_of_not_legal {capacity offset : Nat} (h : ¬(1 ≤ capacity ∧ offset ≤ capacity)) :
    State.construct capacity offset = none := if_neg h

/-- Settles O40: legal arguments give the power-on state, whose first fetch is outside the empty program. -/
theorem constructionGivesThePowerOnState : Obligations.ConstructionGivesThePowerOnState := by
  intro capacity offset
  have hstep := step_of_pcOutside (s := State.powerOn capacity offset) rfl (powerOn_pcOutside capacity offset)
  exact ⟨fun h => ⟨_, construct_of_legal h, powerOn_reg capacity offset, Memory.read_nil, rfl, rfl, rfl, rfl, rfl, rfl,
    rfl, _, hstep, rfl⟩, construct_of_not_legal, rfl⟩

/-- The power-on state has the invariant: nothing is listed, no program is loaded, and the pc is at OFFSET. -/
theorem powerOn_inv {capacity offset : Nat} (hpos : 1 ≤ capacity) (hle : offset ≤ capacity) :
    (State.powerOn capacity offset).Inv where
  memCanonical := rfl
  memWithin := rfl
  capacityPos := hpos
  offsetLe := hle
  plenLe := Nat.zero_le _
  offsetLePc := le_rfl
  pcLe := hle.trans (le_max_left _ _)
  latch := rfl

/-- Settles O48: reset is a power-on state with legal arguments. -/
theorem resetHasTheInvariant : Obligations.ResetHasTheInvariant := powerOn_inv (by decide) (by decide)

/-! ## What LOAD stores (R152, R155) -/

/-- The writes of a LOAD keep the canonical form. -/
theorem startRun_mem_wf {s : State} (hwf : s.mem.wf = true) (words : List Nat) : (s.startRun words).mem.wf = true :=
  Memory.wf_storeWords words _ (Memory.wf_zeroFill hwf _ _)

/-- After a LOAD, a cell of the program region holds its word, or 0 past the last word. -/
theorem startRun_read_program {s : State} (hwf : s.mem.wf = true) (words : List Nat) {a : Nat} (hlo : s.offset ≤ a)
    (hhi : a < s.capacity) : (s.startRun words).mem.read a = BitVec.ofNat 16 (words.getD (a - s.offset) 0) := by
  rw [State.startRun_mem, Memory.read_storeWords words _ _ (Memory.wf_zeroFill hwf _ _)]
  by_cases hword : a - s.offset < words.length
  · rw [dif_pos (by omega), List.getD_eq_getElem words 0 hword]
  · rw [dif_neg (by omega), Memory.read_zeroFill, if_pos ⟨hlo, hhi⟩, List.getD_eq_default words 0 (not_lt.1 hword)]

/-- A LOAD whose words fit leaves every cell outside the program region alone. -/
theorem startRun_read_outside {s : State} (hwf : s.mem.wf = true) {words : List Nat}
    (hl : words.length ≤ s.capacity - s.offset) {a : Nat} (ha : ¬(s.offset ≤ a ∧ a < s.capacity)) :
    (s.startRun words).mem.read a = s.mem.read a := by
  rw [State.startRun_mem, Memory.read_storeWords words _ _ (Memory.wf_zeroFill hwf _ _), dif_neg (by omega),
    Memory.read_zeroFill, if_neg ha]

/-- Settles O41: the program region by its words and the zeros past them, and the cells below it by the frame. -/
theorem loadWritesTheProgramAndKeepsTheRest : Obligations.LoadWritesTheProgramAndKeepsTheRest := by
  intro s words hwf hoff hl hw
  refine ⟨s.startRun words, loadProgram_ok hl hw, fun i hi => ?_, fun a hpast hhi => ?_, fun a ha => ?_,
    rfl, rfl, rfl, rfl, rfl, rfl, rfl, rfl⟩
  · rw [startRun_read_program hwf words (by omega) (by omega), Nat.add_sub_cancel_left, List.getD_eq_getElem words 0 hi,
      BitVec.toNat_ofNat, Nat.mod_eq_of_lt (hw _ (List.getElem_mem hi))]
  · rw [startRun_read_program hwf words (by omega) hhi, List.getD_eq_default words 0 (by omega)]
  · exact startRun_read_outside hwf hl (by omega)

/-! ## The refusals of LOAD (R153) -/

theorem loadProgram_capacityExceeded {s : State} {words : List Nat} (hl : s.capacity - s.offset < words.length) :
    s.loadProgram words = .error .capacityExceeded := if_pos hl

/-- Settles O42: each refusal leaves the state as it was, and the length is checked first. -/
theorem loadRefusalsChangeNothing : Obligations.LoadRefusalsChangeNothing :=
  fun _ _ => ⟨fun hl => hostApply_load_refused (loadProgram_capacityExceeded hl),
    fun hl ⟨_, hmem, hw⟩ => hostApply_load_refused (loadProgram_wordOutOfRange hl hmem hw)⟩

/-! ## HOSTWRITE (R157, R158) -/

theorem hostWrite_of_data_region {s : State} {a v : Nat} (ha : a < s.offset) (hv : v < 2 ^ 16) :
    s.hostWrite a v = some { s with mem := s.mem.write a (BitVec.ofNat 16 v) } := if_pos ⟨ha, hv⟩

theorem hostWrite_refused {s : State} {a v : Nat} (h : s.offset ≤ a ∨ 2 ^ 16 ≤ v) : s.hostWrite a v = none :=
  if_neg (by omega)

/-- Settles O44: an accepted HOSTWRITE is one write of the memory, read back at its cell and beside it. -/
theorem hostWritesOnlyTheDataRegion : Obligations.HostWritesOnlyTheDataRegion := by
  intro s a v hwf
  refine ⟨fun ha hv => ?_, fun h => hostApply_hostWrite_refused (hostWrite_refused h), by rw [hostApply_snapshot]⟩
  refine ⟨_, hostApply_hostWrite_done (hostWrite_of_data_region ha hv), ?_, fun b hb => Memory.read_write_of_ne _ hb⟩
  rw [Memory.read_write_self hwf, BitVec.toNat_ofNat, Nat.mod_eq_of_lt hv]

/-! ## The invariant under the host's operations (R150, R152, R157) -/

/-- HOSTWRITE keeps the invariant: its cell is in the data region, which is below CAPACITY. -/
theorem hostWrite_inv {s t : State} {a v : Nat} (hs : s.Inv) (h : s.hostWrite a v = some t) : t.Inv := by
  obtain ⟨ha, -, rfl⟩ := hostWrite_cases h
  exact { hs with
    memCanonical := Memory.wf_write hs.memCanonical a _
    memWithin := Memory.within_write hs.memWithin (ha.trans_le hs.offsetLe) _ }

/-- LOAD keeps the invariant: its words end at CAPACITY at most, and it clears the latch and the record together. -/
theorem loadProgram_inv {s t : State} {words : List Nat} (hs : s.Inv) (h : s.loadProgram words = .ok t) : t.Inv := by
  obtain ⟨hl, -, rfl⟩ := loadProgram_cases h
  have hoff := hs.offsetLe
  have hend : s.offset + words.length ≤ s.capacity := by omega
  exact {
    memCanonical := startRun_mem_wf hs.memCanonical words
    memWithin := Memory.within_storeWords words _ (Memory.within_zeroFill hs.memWithin _ _) hend
    capacityPos := hs.capacityPos
    offsetLe := hoff
    plenLe := hl
    offsetLePc := le_rfl
    pcLe := hoff.trans (le_max_left _ _)
    latch := rfl }

/-- Settles O49: each operation, accepted or refused; a refused one leaves the state as it was. -/
theorem constructionAndHostWritesKeepTheInvariant : Obligations.ConstructionAndHostWritesKeepTheInvariant := by
  refine ⟨fun capacity offset s h => ?_, fun s a v hs => ?_, fun s words hs => ?_⟩
  · obtain ⟨hpos, hle, rfl⟩ := construct_cases h
    exact powerOn_inv hpos hle
  · cases h : s.hostWrite a v with
    | none => rwa [hostApply_hostWrite_refused h]
    | some t =>
      rw [hostApply_hostWrite_done h]
      exact hostWrite_inv hs h
  · cases h : s.loadProgram words with
    | error e => rwa [hostApply_load_refused h]
    | ok t =>
      rw [hostApply_load_done h]
      exact loadProgram_inv hs h

/-! ## Placing an instruction (log entry 10) -/

/-- A placed word stands where the READY core fetches next. -/
theorem placeInstr_fetches {s : State} (hs : s.Inv) (hroom : s.offset < s.capacity) (w : InstrWord) :
    (s.placeInstr w).status = .ready ∧ (s.placeInstr w).pcInProgram ∧
      (s.placeInstr w).mem.read (s.placeInstr w).pc = w := by
  rcases placeInstr_cases s w with ⟨hready, hp, h⟩ | ⟨-, h⟩ | ⟨hempty, -⟩
  · rw [h]
    exact ⟨hready, hp, Memory.read_write_self hs.memCanonical s.pc w⟩
  · rw [h]
    refine ⟨rfl, ⟨le_rfl, Nat.lt_succ_self s.offset⟩, ?_⟩
    calc (s.startRun [w.toNat]).mem.read s.offset
        = BitVec.ofNat 16 ([w.toNat].getD (s.offset - s.offset) 0) :=
          startRun_read_program hs.memCanonical _ le_rfl hroom
      _ = w := by simp
  · omega

/-- A 16-bit word is the whole of its table row. -/
theorem tableWord_sixteen {w : Nat} (hw : w < 2 ^ 16) : tableWord 16 w = BitVec.ofNat 16 w := by
  rw [tableWord, Nat.mod_eq_of_lt hw]

/-- Settles O50: the placed word is the one the step fetches. -/
theorem placedInstructionIsTheNextOneExecuted : Obligations.PlacedInstructionIsTheNextOneExecuted := by
  intro s w hs hroom hw
  obtain ⟨hready, hp, hread⟩ := placeInstr_fetches hs hroom (tableWord 16 w)
  rw [State.withFetchWord, step_of_pcInProgram hready hp, hread, tableWord_sixteen hw]

/-! ## Runs in sequence (R160) -/

theorem reaches_zero_iff {s t : State} : Reaches s 0 t ↔ t = s :=
  ⟨fun h => (Host.Outcome.next.inj h).symm, fun h => congrArg Host.Outcome.next h.symm⟩

/-- A run of `k + 1` steps is one step and a run of `k`. -/
theorem reaches_succ_iff {s u : State} {k : Nat} : Reaches s (k + 1) u ↔ ∃ t, step s = .next t ∧ Reaches t k u := by
  constructor
  · intro h
    obtain ⟨t, hstep⟩ := step_next s
    exact ⟨t, hstep, (run_succ k hstep).symm.trans h⟩
  · rintro ⟨t, hstep, h⟩
    exact (run_succ k hstep).trans h

theorem reaches_trans {j k : Nat} {s t u : State} (h : Reaches s j t) (h' : Reaches t k u) : Reaches s (j + k) u := by
  induction j generalizing s with
  | zero =>
    cases reaches_zero_iff.1 h
    rwa [Nat.zero_add]
  | succ j ih =>
    obtain ⟨v, hstep, hrest⟩ := reaches_succ_iff.1 h
    rw [Nat.add_right_comm]
    exact reaches_succ_iff.2 ⟨v, hstep, ih hrest⟩

theorem reaches_unique {s t t' : State} {k : Nat} (h : Reaches s k t) (h' : Reaches s k t') : t = t' :=
  Host.Outcome.next.inj (h.symm.trans h')

/-- What every step keeps, every run keeps. -/
theorem reaches_keeps {P : State → Prop} (keeps : ∀ s t, P s → step s = .next t → P t) {k : Nat} {s t : State}
    (hs : P s) (h : Reaches s k t) : P t := by
  induction k generalizing s with
  | zero =>
    cases reaches_zero_iff.1 h
    exact hs
  | succ k ih =>
    obtain ⟨u, hstep, hrest⟩ := reaches_succ_iff.1 h
    exact ih (keeps s u hs hstep) hrest

theorem reaches_inv {k : Nat} {s t : State} (hs : s.Inv) (h : Reaches s k t) : t.Inv :=
  reaches_keeps stepKeepsTheInvariant hs h

theorem reaches_keeps_config {k : Nat} {s t : State} (h : Reaches s k t) :
    t.capacity = s.capacity ∧ t.offset = s.offset := by
  refine reaches_keeps (P := fun u => u.capacity = s.capacity ∧ u.offset = s.offset) ?_ ⟨rfl, rfl⟩ h
  rintro u v ⟨hcap, hoff⟩ hstep
  obtain ⟨-, hcap', hoff'⟩ := step_keeps_program_region hstep
  exact ⟨hcap'.trans hcap, hoff'.trans hoff⟩

/-! ## LOAD again, and LOAD after a run (R154) -/

/-- Writing the same words again leaves the same memory: both are canonical, and read alike in the program
region by the words and outside it by the frame. -/
theorem startRun_startRun_mem {s : State} (hwf : s.mem.wf = true) {words : List Nat}
    (hl : words.length ≤ s.capacity - s.offset) :
    ((s.startRun words).startRun words).mem = (s.startRun words).mem := by
  have hwf' := startRun_mem_wf hwf words
  refine canonicalMemoriesThatReadAlikeAreEqual _ _ (startRun_mem_wf hwf' words) hwf' fun a => ?_
  by_cases ha : s.offset ≤ a ∧ a < s.capacity
  · obtain ⟨hlo, hhi⟩ := ha
    rw [startRun_read_program hwf words hlo hhi]
    exact startRun_read_program hwf' words hlo hhi
  · exact startRun_read_outside hwf' hl ha

theorem startRun_startRun {s : State} (hwf : s.mem.wf = true) {words : List Nat}
    (hl : words.length ≤ s.capacity - s.offset) : (s.startRun words).startRun words = s.startRun words := by
  calc (s.startRun words).startRun words
      = { s.startRun words with mem := ((s.startRun words).startRun words).mem } := rfl
    _ = s.startRun words := by rw [startRun_startRun_mem hwf hl]

/-- Settles O43: the second LOAD by the memories' equality; a run keeps CAPACITY, OFFSET and the canonical form, and on
these and the words alone depends what LOAD puts in the program region. -/
theorem loadIsIdempotentAndResettable : Obligations.LoadIsIdempotentAndResettable := by
  intro s t words hs h
  have ht := loadProgram_inv hs h
  obtain ⟨hl, hw, rfl⟩ := loadProgram_cases h
  refine ⟨?_, fun k u hrun => ?_⟩
  · rw [loadProgram_ok (s := s.startRun words) hl hw, startRun_startRun hs.memCanonical hl]
  · have hu := reaches_inv ht hrun
    obtain ⟨hcap, hoff⟩ := reaches_keeps_config hrun
    rw [State.startRun_capacity] at hcap
    rw [State.startRun_offset] at hoff
    refine ⟨u.startRun words, loadProgram_ok (by rwa [hcap, hoff]) hw, hoff, rfl, fun a hlo hhi => ?_⟩
    rw [startRun_read_program hs.memCanonical words hlo hhi,
      startRun_read_program hu.memCanonical words (hoff ▸ hlo) (hcap ▸ hhi), hoff]

/-! ## The end of a run (R91, R160) -/

/-- A run that ends at step `k + 1` has not returned Continuing there, so no other end comes after it. -/
theorem runEndsAt_le {s : State} {k k' : Nat} {o o' : StepOutcome} (h : RunEndsAt s k o) (h' : RunEndsAt s k' o') :
    k' ≤ k := by
  obtain ⟨ho, -, t, ht, rfl⟩ := h
  obtain ⟨-, continues, -⟩ := h'
  by_contra hlt
  exact ho (continues (k + 1) t (Nat.succ_pos k) (not_le.1 hlt) ht)

/-- A run is, from the step that does not continue on, at the state of that step. -/
theorem reaches_of_stopped {s t : State} {k : Nat} (h : Reaches s (k + 1) t) (ht : t.outcome ≠ .continuing) {j : Nat}
    (hj : k < j) : Reaches s j t := by
  have hstopped : t.status ≠ .ready := mt outcome_of_ready ht
  have hrun := reaches_trans h (run_of_not_ready hstopped (j - (k + 1)))
  rwa [Nat.add_sub_cancel' hj] at hrun

/-- Settles O34: each end comes no later than the other, runs of one length reach one state, and a stopped core stays. -/
theorem runEndsAtMostOnceAndStaysEnded : Obligations.RunEndsAtMostOnceAndStaysEnded := by
  intro s k k' o o' h h'
  obtain rfl : k = k' := le_antisymm (runEndsAt_le h' h) (runEndsAt_le h h')
  obtain ⟨ho, -, t, ht, rfl⟩ := h
  obtain ⟨-, -, t', ht', rfl⟩ := h'
  exact ⟨rfl, by rw [reaches_unique ht ht'], t, rfl, fun j hj => reaches_of_stopped ht ho hj⟩

end Sys2Proof.Machine
